-- ==== Sys2Proof/Word.lean ====
section
/-! DEFINITION. The word types of the FMU (spec 00_scope.md section 5, 10_state.md section 1): every value is an unsigned
integer of a stated width. -/

namespace Sys2Proof

/-- One byte of the message buffer (20_memory.md rule R40). -/
abbrev Byte := BitVec 8

/-- A 32-bit register or operand (10_state.md). -/
abbrev Word := BitVec 32

/-- A 64-bit nonce (10_state.md rule R18). -/
abbrev Nonce := BitVec 64

/-- A 40-bit command word, presented whole on the command port (30_encoding.md rule R60). -/
abbrev CmdWord := BitVec 40

end Sys2Proof
end

