-- ==== Sys2Proof/Syntax.lean ====
section
/-! DEFINITION. The 15 commands of the FMU (spec 30_encoding.md rule R63): one constructor per row of the opcode table, its
operand in the width rule R62 gives it. -/

namespace Sys2Proof

/-- How much of `imm` a command uses (30_encoding.md rule R61). -/
inductive Format where
  /-- no operand: `imm` must be 0 -/
  | n
  /-- byte operand: `imm[31:8]` must be 0 -/
  | b
  /-- word operand -/
  | w
  deriving DecidableEq, Repr

/-- A command with its operand (30_encoding.md rules R62 and R63). The operand types are the operand ranges, so every term is
a command; what can be ill-formed is a word (Decode.lean) or a source line (WellFormed.lean). -/
inductive Instr where
  /-- write the commit-object header for a body of `n` bytes (42_framing.md rule R111) -/
  | hdr (n : Word)
  /-- append one data byte (40_padding.md rule R82) -/
  | putb (b : Byte)
  /-- append the placeholder and record its offset (42_framing.md rule R112) -/
  | mark
  /-- apply the padding in place (40_padding.md rule R85) -/
  | pad
  /-- write `NONCE[31:0]` (43_result.md rule R120) -/
  | setnl (v : Word)
  /-- write `NONCE[63:32]` (43_result.md rule R121) -/
  | setnh (v : Word)
  /-- write the nonce at the placeholder (43_result.md rule R122) -/
  | splice
  /-- locate the object bytes (43_result.md rule R123) -/
  | strip
  /-- add one character of the prefix to the Target (41_target_match.md rule R91) -/
  | putc (c : Byte)
  /-- compare the digest with the Target (41_target_match.md rule R101) -/
  | cmp
  /-- write `DIGEST[0]` (41_target_match.md rule R96) -/
  | setd0 (v : Word)
  /-- write `DIGEST[1]` (41_target_match.md rule R97) -/
  | setd1 (v : Word)
  /-- write `DIGEST[2]` (41_target_match.md rule R98) -/
  | setd2 (v : Word)
  /-- write `DIGEST[3]` (41_target_match.md rule R99) -/
  | setd3 (v : Word)
  /-- write `DIGEST[4]` (41_target_match.md rule R100) -/
  | setd4 (v : Word)
  deriving DecidableEq, Repr

/-- The commands without their operands: the rows of the opcode map (30_encoding.md rule R63). -/
inductive Mnemonic where
  | hdr | putb | mark | pad | setnl | setnh | splice | strip | putc | cmp | setd0 | setd1 | setd2 | setd3 | setd4
  deriving DecidableEq, Repr

end Sys2Proof
end

