-- ==== Sys2Proof/WellFormed.lean ====
section
/-! DEFINITION. Which commands may be written: a source line is a mnemonic with an optional operand, and its operand must
be present exactly where the format has one, and in range (spec 30_encoding.md rules R61, R62, R67). A line that fails is
"an assembly error, not a command" (rule R67). -/

namespace Sys2Proof

/-- The format of a command (30_encoding.md rule R63). -/
def Mnemonic.format : Mnemonic → Format
  | .hdr => .w
  | .putb => .b
  | .mark => .n
  | .pad => .n
  | .setnl => .w
  | .setnh => .w
  | .splice => .n
  | .strip => .n
  | .putc => .b
  | .cmp => .n
  | .setd0 => .w
  | .setd1 => .w
  | .setd2 => .w
  | .setd3 => .w
  | .setd4 => .w

/-- A command as it is written: a mnemonic and, where there is one, the number its operand stands for (rule R67). -/
structure SourceLine where
  mnemonic : Mnemonic
  operand : Option Nat
  deriving DecidableEq, Repr

/-- Rule R67's operand ranges: none for format N, 0 to 255 for format B, 0 to 4294967295 for format W. -/
def SourceLine.wellFormed (l : SourceLine) : Bool :=
  match l.mnemonic.format, l.operand with
  | .n, none => true
  | .n, some _ => false
  | .b, none => false
  | .b, some v => decide (v < 256)
  | .w, none => false
  | .w, some v => decide (v < 2 ^ 32)

/-- The mnemonic of a command. -/
def Instr.mnemonic : Instr → Mnemonic
  | .hdr _ => .hdr
  | .putb _ => .putb
  | .mark => .mark
  | .pad => .pad
  | .setnl _ => .setnl
  | .setnh _ => .setnh
  | .splice => .splice
  | .strip => .strip
  | .putc _ => .putc
  | .cmp => .cmp
  | .setd0 _ => .setd0
  | .setd1 _ => .setd1
  | .setd2 _ => .setd2
  | .setd3 _ => .setd3
  | .setd4 _ => .setd4

/-- The operand of a command as a number. -/
def Instr.operand : Instr → Option Nat
  | .hdr n => some n.toNat
  | .putb b => some b.toNat
  | .mark => none
  | .pad => none
  | .setnl v => some v.toNat
  | .setnh v => some v.toNat
  | .splice => none
  | .strip => none
  | .putc c => some c.toNat
  | .cmp => none
  | .setd0 v => some v.toNat
  | .setd1 v => some v.toNat
  | .setd2 v => some v.toNat
  | .setd3 v => some v.toNat
  | .setd4 v => some v.toNat

/-- A command as a source line. -/
def Instr.source (i : Instr) : SourceLine := ⟨i.mnemonic, i.operand⟩

/-- A command is well-formed when the line that writes it is. The operand types make this true of every command
(`instr_wellFormed` in Laws/PerInstr.lean). -/
def Instr.wellFormed (i : Instr) : Bool := i.source.wellFormed

end Sys2Proof
end

