-- ==== Sys2Proof/Decode.lean ====
section
/-! DEFINITION. Decoding a 40-bit command word, a total function of the word alone, and encoding a command, its inverse
(spec 30_encoding.md rules R60 to R66). -/

namespace Sys2Proof

/-- Why a word is no command (rule R64): its three cases. -/
inductive Illegal where
  /-- case 1: `op` is none of the 15 opcodes -/
  | unknownOpcode
  /-- case 2: a format N opcode and `imm != 0` -/
  | operandOfNoOperandCommand
  /-- case 3: a format B opcode and `imm[31:8] != 0` -/
  | operandAboveByte
  deriving DecidableEq, Repr

/-- What a word decodes to: a command, or Illegal with its reason (rule R66). -/
inductive Decoded where
  | command (i : Instr)
  | illegal (why : Illegal)
  deriving DecidableEq, Repr

/-- `op = w[39:32]` (rule R60). -/
def opField (w : CmdWord) : Byte := w.extractLsb' 32 8

/-- `imm = w[31:0]` (rule R60). -/
def immField (w : CmdWord) : Word := w.extractLsb' 0 32

/-- `imm[7:0]`, the operand of a format B command (rule R62). -/
def byteOf (imm : Word) : Byte := imm.extractLsb' 0 8

/-- `imm[31:8]`, which a format B command needs to be 0 (rule R61). -/
def aboveByte (imm : Word) : BitVec 24 := imm.extractLsb' 8 24

/-- A format N command: legal only with `imm = 0` (rule R61). -/
def decodeN (imm : Word) (i : Instr) : Decoded :=
  if imm = 0 then .command i else .illegal .operandOfNoOperandCommand

/-- A format B command: legal only with `imm[31:8] = 0` (rule R61). -/
def decodeB (imm : Word) (mk : Byte → Instr) : Decoded :=
  if aboveByte imm = 0 then .command (mk (byteOf imm)) else .illegal .operandAboveByte

/-- A format W command: every `imm` is an operand (rule R61). -/
def decodeW (imm : Word) (mk : Word → Instr) : Decoded := .command (mk imm)

/-- `Decode(w)` of rule R66. -/
def decode (w : CmdWord) : Decoded :=
  let imm := immField w
  match opField w with
  | 0x01#8 => decodeW imm .hdr
  | 0x02#8 => decodeB imm .putb
  | 0x03#8 => decodeN imm .mark
  | 0x04#8 => decodeN imm .pad
  | 0x10#8 => decodeW imm .setnl
  | 0x11#8 => decodeW imm .setnh
  | 0x12#8 => decodeN imm .splice
  | 0x13#8 => decodeN imm .strip
  | 0x20#8 => decodeB imm .putc
  | 0x21#8 => decodeN imm .cmp
  | 0x28#8 => decodeW imm .setd0
  | 0x29#8 => decodeW imm .setd1
  | 0x2A#8 => decodeW imm .setd2
  | 0x2B#8 => decodeW imm .setd3
  | 0x2C#8 => decodeW imm .setd4
  | _ => .illegal .unknownOpcode

/-- The opcode of a command (rule R63). -/
def opcode : Mnemonic → Byte
  | .hdr => 0x01#8
  | .putb => 0x02#8
  | .mark => 0x03#8
  | .pad => 0x04#8
  | .setnl => 0x10#8
  | .setnh => 0x11#8
  | .splice => 0x12#8
  | .strip => 0x13#8
  | .putc => 0x20#8
  | .cmp => 0x21#8
  | .setd0 => 0x28#8
  | .setd1 => 0x29#8
  | .setd2 => 0x2A#8
  | .setd3 => 0x2B#8
  | .setd4 => 0x2C#8

/-- `imm` of an encoded command: the operand in the low bits and 0 in every other bit (rule R66). -/
def operandImm : Instr → Word
  | .hdr n => n
  | .putb b => b.setWidth 32
  | .mark => 0
  | .pad => 0
  | .setnl v => v
  | .setnh v => v
  | .splice => 0
  | .strip => 0
  | .putc c => c.setWidth 32
  | .cmp => 0
  | .setd0 v => v
  | .setd1 v => v
  | .setd2 v => v
  | .setd3 v => v
  | .setd4 v => v

/-- `Encode(c)` of rule R66: `op` in bits 39:32, `imm` in bits 31:0. -/
def encode (i : Instr) : CmdWord := opcode i.mnemonic ++ operandImm i

/-- One row of the opcode map: a word is a command of the row exactly when `w AND mask = pattern` (rule R63, where the
pattern is called `match`). -/
structure OpcodeRow where
  mnemonic : Mnemonic
  pattern : CmdWord
  mask : CmdWord
  deriving DecidableEq, Repr

/-- The complete opcode map (rule R63), row by row as spec/opcode_table.json has it. -/
def opcodeMap : List OpcodeRow :=
  [ ⟨.hdr, 0x0100000000#40, 0xFF00000000#40⟩,
    ⟨.putb, 0x0200000000#40, 0xFFFFFFFF00#40⟩,
    ⟨.mark, 0x0300000000#40, 0xFFFFFFFFFF#40⟩,
    ⟨.pad, 0x0400000000#40, 0xFFFFFFFFFF#40⟩,
    ⟨.setnl, 0x1000000000#40, 0xFF00000000#40⟩,
    ⟨.setnh, 0x1100000000#40, 0xFF00000000#40⟩,
    ⟨.splice, 0x1200000000#40, 0xFFFFFFFFFF#40⟩,
    ⟨.strip, 0x1300000000#40, 0xFFFFFFFFFF#40⟩,
    ⟨.putc, 0x2000000000#40, 0xFFFFFFFF00#40⟩,
    ⟨.cmp, 0x2100000000#40, 0xFFFFFFFFFF#40⟩,
    ⟨.setd0, 0x2800000000#40, 0xFF00000000#40⟩,
    ⟨.setd1, 0x2900000000#40, 0xFF00000000#40⟩,
    ⟨.setd2, 0x2A00000000#40, 0xFF00000000#40⟩,
    ⟨.setd3, 0x2B00000000#40, 0xFF00000000#40⟩,
    ⟨.setd4, 0x2C00000000#40, 0xFF00000000#40⟩ ]

/-- The word is a command of the row (rule R63). -/
def OpcodeRow.selects (r : OpcodeRow) (w : CmdWord) : Bool := w &&& r.mask == r.pattern

/-- A table word of `nbits` bits as the command port takes it: the bits above `nbits` are 0 (log entry
13). -/
def tableWord (nbits w : Nat) : CmdWord := BitVec.ofNat 40 (w % 2 ^ nbits)

/-- The command the decoder reads from a word numbered as spec/opcode_table.json numbers it: bit 0 is the least significant
bit of the 40-bit command word. A number that needs more than 40 bits is no command word (rule R60). -/
def decodeTableWord (nbits w : Nat) : Option Instr :=
  if w % 2 ^ nbits < 2 ^ 40 then
    match decode (tableWord nbits w) with
    | .command i => some i
    | .illegal _ => none
  else none

end Sys2Proof
end

