-- ==== Sys2Proof/Config.lean ====
section
/-! DEFINITION. What one build of the FMU fixes: the capacity of its message buffer (spec 00_scope.md rule R5,
92_eei_decisions.md D3). The constants of rule R4 stand in Machine/Operands.lean. -/

namespace Sys2Proof

/-- A buffer capacity that rule R5 allows, held as its number of 64-byte blocks less one: the values 0 to 67108862 are
exactly the capacities 64, 128, ..., 2^32 - 64 ("a multiple of 64, `64 <= MSG_CAP <= 2^32 - 64`"). -/
abbrev Capacity := Fin 67108863

/-- The capacity in bytes. -/
def Capacity.bytes (c : Capacity) : Nat := 64 * (c.val + 1)

/-- `MSG_CAP` of the build that `State.reset` describes. The spec leaves it OPEN (rule R5, D3), so it has no body: nothing
can be proved about it beyond what its type says (log entry 2). -/
opaque Config.msgCap : Capacity

end Sys2Proof
end

