-- ==== Sys2Proof/Machine/State.lean ====
section
/-! DEFINITION. The state of the FMU as plain data (spec 10_state.md rules R10 to R24), the reasons a step of the model can
stop, and the state after reset (rule R33). -/

namespace Sys2Proof.Machine

open Sys2Proof

/-- The message buffer's bytes that hold a value, as (address, byte) pairs with strictly rising addresses
(10_state.md rule R11). An address that is not listed holds no value (log entry 3). -/
abbrev Memory := List Host.Cell

/-- Five 32-bit words, word 0 most significant (10_state.md rules R19 and R21). -/
structure Words5 where
  w0 : Word
  w1 : Word
  w2 : Word
  w3 : Word
  w4 : Word
  deriving DecidableEq, Repr

/-- The six faults of the FMU (60_exceptions.md rule R130). A fault of the FMU is a NEXT state of the model, with `ERR` and
`ECMD` written; the model's own stops are `Fault` and `Refusal`. -/
inductive Cause where
  /-- code 1: the word matches no row of the opcode map -/
  | illegalCommand
  /-- code 2: the command is not allowed in the present phase -/
  | sequence
  /-- code 3: not a hexadecimal character, or a 41st one -/
  | invalidPrefix
  /-- code 4: the bytes do not fit in `MB` -/
  | overflow
  /-- code 5: the header announces a length the body does not have -/
  | lengthMismatch
  /-- code 6: the data hold no `0x00` -/
  | noTerminator
  deriving DecidableEq, Repr

/-- What the host can do to the FMU that changes its state: present a command word, or reset it (70_reset_and_hazards.md
rules R160, R162 and R168). -/
inductive HostEvent where
  | command (w : CmdWord)
  | reset
  deriving DecidableEq, Repr

/-- The registers and the message buffer (10_state.md, table of section 1), and the two inputs of the step that rule R10
names beside them: the build's capacity and the host's events. -/
structure State where
  /-- INPUT, not FMU state: the build's `MSG_CAP`; no step changes it (rules R5 and R10; log entry 2) -/
  cap : Capacity
  /-- INPUT, not FMU state: the host events presented and not yet taken, oldest first (rules R10 and R168; log entry 1) -/
  port : List HostEvent
  /-- `MB` (rule R11) -/
  mb : Memory
  /-- `LEN` (rule R12) -/
  len : Word
  /-- `HDRDONE` (rule R13) -/
  hdrDone : Bool
  /-- `HLEN` (rule R13) -/
  hlen : Word
  /-- `BODYLEN` (rule R13) -/
  bodyLen : Word
  /-- `MARKED` (rule R14) -/
  marked : Bool
  /-- `POFF` (rule R14) -/
  poff : Word
  /-- `PADDED` (rule R15) -/
  padded : Bool
  /-- `PLEN` (rule R15) -/
  plen : Word
  /-- `STRIPPED` (rule R16) -/
  stripped : Bool
  /-- `OBJOFF` (rule R16) -/
  objOff : Word
  /-- `OBJLEN` (rule R16) -/
  objLen : Word
  /-- `NONCE` (rule R18) -/
  nonce : Nonce
  /-- `TARGET[0..4]` (rule R19) -/
  target : Words5
  /-- `PREC` (rule R19) -/
  prec : BitVec 8
  /-- `TLOCK` (rule R20) -/
  tlock : Bool
  /-- `DIGEST[0..4]` (rule R21) -/
  digest : Words5
  /-- `MATCH` (rule R22) -/
  matched : Bool
  /-- `RVALID` (rule R23) -/
  rvalid : Bool
  /-- `RESULT` (rule R23) -/
  result : Nonce
  /-- `ERR` (rule R24): `none` is the value 0, "no fault"; the codes are `Cause.code` (log entry 4) -/
  err : Option Cause
  /-- `ECMD` (rule R24) -/
  ecmd : CmdWord
  deriving DecidableEq, Repr

/-- Why the MODEL stops: an access to a byte that does not exist or holds no value. No run from reset reaches one; both are
safe (the model stops where the spec gives no effect). -/
inductive Fault where
  /-- raised by a store (PUTB, SPLICE) to `MB` at address `a` when a byte stored to lies at or beyond `MSG_CAP`, where the
  spec has no memory (20_memory.md rule R40); only in states with `LEN > MSG_CAP` or `POFF + 16 > MSG_CAP`, which no run reaches.
  Safe; log entry 5 -/
  | outsideBuffer (a : Nat)
  /-- raised by STRIP when its scan meets the byte at address `a < LEN` and that byte holds no value (10_state.md rule R11, "no
  command reads such a byte"); only in states that no run reaches. Safe; log entry 3 -/
  | noValue (a : Nat)
  deriving DecidableEq, Repr

/-- Why the MODEL refuses. -/
inductive Refusal where
  /-- raised by an arm of exec whose instruction has no meaning yet; safe -/
  | notModelled (mnemonic : String)
  /-- raised by CMP and PUTC when `PREC` is above 160 (41_target_match.md rule R94: "for `P > 160` it is not defined and
  cannot be reached"; 93_implementation_defined.md U10: refuse). Safe; log entry 6 -/
  | precisionOutOfRange (prec : Nat)
  deriving DecidableEq, Repr

/-- How one step ends. -/
abbrev Result := Host.Outcome State Fault Refusal

/-- The state right after reset (10_state.md rule R33): every register 0, no byte of `MB` with a value. The host has
presented nothing yet (log entry 1) and the capacity is the build's (log entry 2). -/
def State.reset : State where
  cap := Config.msgCap
  port := []
  mb := []
  len := 0
  hdrDone := false
  hlen := 0
  bodyLen := 0
  marked := false
  poff := 0
  padded := false
  plen := 0
  stripped := false
  objOff := 0
  objLen := 0
  nonce := 0
  target := ⟨0, 0, 0, 0, 0⟩
  prec := 0
  tlock := false
  digest := ⟨0, 0, 0, 0, 0⟩
  matched := false
  rvalid := false
  result := 0
  err := none
  ecmd := 0

end Sys2Proof.Machine
end

