-- ==== Sys2Proof/Machine/Operands.lean ====
section
/-! DEFINITION. The constants (spec 00_scope.md rule R4) and the pure functions of the command rules: hexadecimal and
decimal text (R6 to R9), padding (40_padding.md R80, R81, R84), the target encoder and the match (41_target_match.md R90,
R93, R94), the commit-object header (42_framing.md R110). -/

namespace Sys2Proof.Machine

open Sys2Proof

/-! ## Constants (rule R4) -/

/-- `BLOCK`: bytes per hash block. -/
def blockBytes : Nat := 64

/-- `PAD_THRESH`: a longer last block needs one more block. -/
def padThreshold : Nat := 55

/-- `PAD_MARK`: the byte written at offset `LEN`. -/
def padMark : Byte := 0x80

/-- `LENFIELD`: bytes of the bit-length trailer. -/
def lengthFieldBytes : Nat := 8

/-- `DIGEST_BITS`: the width of the digest and of the Target. -/
def digestBits : Nat := 160

/-- `PH_LEN`: bytes of the placeholder, characters of a nonce. -/
def placeholderBytes : Nat := 16

/-- `SENTINEL`: the filler byte of the placeholder (fixed by 92_eei_decisions.md D11). -/
def sentinel : Byte := 0x46

/-- `HDR_LIT`: the seven bytes of "commit " (rules R4 and R110). -/
def headerLiteral : List Byte := [0x63, 0x6F, 0x6D, 0x6D, 0x69, 0x74, 0x20]

/-- `HDR_END`: the header's terminator. -/
def headerEnd : Byte := 0x00

/-! ## Hexadecimal and decimal text (rules R6 to R9) -/

/-- `hexval(c)`: the value of one hexadecimal character, in either case, or none (rule R6). -/
def hexval (c : Byte) : Option (BitVec 4) :=
  let n := c.toNat
  if 0x30 ≤ n ∧ n ≤ 0x39 then some (BitVec.ofNat 4 (n - 0x30))
  else if 0x41 ≤ n ∧ n ≤ 0x46 then some (BitVec.ofNat 4 (n - 0x41 + 10))
  else if 0x61 ≤ n ∧ n ≤ 0x66 then some (BitVec.ofNat 4 (n - 0x61 + 10))
  else none

/-- `hexU(v)`: the uppercase hexadecimal character of `v` (rule R7). -/
def hexU (v : BitVec 4) : Byte :=
  if v.toNat ≤ 9 then BitVec.ofNat 8 (0x30 + v.toNat) else BitVec.ofNat 8 (0x41 + (v.toNat - 10))

/-- Digit `i` of a nonce, `n[63-4i : 60-4i]`, digit 0 the most significant (rule R8). -/
def nonceDigit (n : Nonce) (i : Nat) : BitVec 4 := n.extractLsb' (60 - 4 * i) 4

/-- `Hex16(n)`: a nonce as 16 uppercase hexadecimal characters, most significant first (rule R8). -/
def hex16 (n : Nonce) : List Byte := (List.range placeholderBytes).map fun i => hexU (nonceDigit n i)

/-- The decimal digit character of `d`, for `d` at most 9 (rule R9). -/
def decDigit (d : Nat) : Byte := BitVec.ofNat 8 (0x30 + d)

/-- The decimal numeral of `n`, by at most `fuel` divisions by 10. -/
def decWithFuel : Nat → Nat → List Byte
  | 0, n => [decDigit n]
  | fuel + 1, n => if n < 10 then [decDigit n] else decWithFuel fuel (n / 10) ++ [decDigit (n % 10)]

/-- `Dec(n)`, for `n < 2^32`: the decimal numeral of `n`, most significant digit first, with no leading zero (rule R9). Ten
digits suffice below 2^32. -/
def dec (n : Nat) : List Byte := decWithFuel 10 n

/-! ## The commit-object header (42_framing.md rule R110) -/

/-- `CommitHeader(n)`: "commit ", the decimal length, a zero byte. -/
def commitHeader (n : Word) : List Byte := headerLiteral ++ dec n.toNat ++ [headerEnd]

/-! ## Padding (40_padding.md rules R80, R81, R84) -/

/-- `PadBlocks(L)` (rule R80). -/
def padBlocks (len : Nat) : Nat :=
  if len % blockBytes > padThreshold then len / blockBytes + 2 else len / blockBytes + 1

/-- `PadLen(L)`: the padded length in bytes (rule R80). -/
def padLen (len : Nat) : Nat := blockBytes * padBlocks len

/-- `BE64(n)`: the 8 bytes of a 64-bit integer, most significant first (rule R84). -/
def be64 (n : Nat) : List Byte :=
  (List.range lengthFieldBytes).map fun j => BitVec.ofNat 8 (n / 2 ^ (8 * (7 - j)))

/-- What the padding puts after `len` data bytes: `0x80`, the zero bytes, the bit length (rules R81 and R85). -/
def padTail (len : Nat) : List Byte :=
  padMark :: (List.replicate (padLen len - 9 - len) (0x00 : Byte) ++ be64 (8 * len))

/-- `Pad(d)` (rule R81). -/
def pad (d : List Byte) : List Byte := d ++ padTail d.length

/-! ## Target and digest (41_target_match.md rules R90, R93, R94) -/

/-- Word `j` of five, `j` from 0 to 4 (no caller asks for another). -/
def Words5.get (x : Words5) : Nat → Word
  | 0 => x.w0
  | 1 => x.w1
  | 2 => x.w2
  | 3 => x.w3
  | _ => x.w4

/-- Five words with word `j` replaced, `j` from 0 to 4 (another `j` names no word: nothing is replaced). -/
def Words5.set (x : Words5) (j : Nat) (v : Word) : Words5 :=
  match j with
  | 0 => { x with w0 := v }
  | 1 => { x with w1 := v }
  | 2 => { x with w2 := v }
  | 3 => { x with w3 := v }
  | 4 => { x with w4 := v }
  | _ => x

/-- `W160(x)`: the five words as one 160-bit number, word 0 most significant (rule R93). -/
def w160 (x : Words5) : BitVec 160 := x.w0 ++ x.w1 ++ x.w2 ++ x.w3 ++ x.w4

/-- `Match(D, T, P)`, for `P` at most 160: the top `P` bits agree (rule R94). -/
def prefixMatch (d t : Words5) (p : Nat) : Bool :=
  (w160 d).toNat / 2 ^ (digestBits - p) == (w160 t).toNat / 2 ^ (digestBits - p)

/-- The bit position of the least significant bit of hexadecimal digit `k` in its word (rule R91). -/
def digitShift (k : Nat) : Nat := 28 - 4 * (k % 8)

/-- A word with the four bits `[s+3 : s]` replaced by `d` (rule R91). -/
def setDigit (w : Word) (s : Nat) (d : BitVec 4) : Word :=
  (w &&& ~~~((0xF : Word) <<< s)) ||| (d.setWidth 32 <<< s)

/-- The Target with hexadecimal digit `k` (0 to 39, digit 0 the most significant) replaced by `d` (rule R91). -/
def putTargetDigit (t : Words5) (k : Nat) (d : BitVec 4) : Words5 :=
  t.set (k / 8) (setDigit (t.get (k / 8)) (digitShift k) d)

/-- Eight hexadecimal digits as a word, the first in bits 31:28 (rule R90). -/
def wordOfDigits (h : Nat → BitVec 4) (j : Nat) : Word :=
  h (8 * j) ++ h (8 * j + 1) ++ h (8 * j + 2) ++ h (8 * j + 3) ++ h (8 * j + 4) ++ h (8 * j + 5) ++ h (8 * j + 6)
    ++ h (8 * j + 7)

/-- The hexadecimal digits of a prefix padded with zeros on the right: digit `i` of `s`, 0 from the end on (rule R90). -/
def prefixDigit (s : List Byte) (i : Nat) : BitVec 4 := ((s[i]?).bind hexval).getD 0

/-- `TargetEncode(s)`: the Target and its precision in bits, or none for InvalidPrefix (rule R90). -/
def targetEncode (s : List Byte) : Option (Words5 × Nat) :=
  if s.length > 40 then none
  else if s.any (fun c => (hexval c).isNone) then none
  else
    let h := prefixDigit s
    some (⟨wordOfDigits h 0, wordOfDigits h 1, wordOfDigits h 2, wordOfDigits h 3, wordOfDigits h 4⟩, 4 * s.length)

/-- The lowercase hexadecimal character of `v` (rules R6 and R102). -/
def hexL (v : BitVec 4) : Byte :=
  if v.toNat ≤ 9 then BitVec.ofNat 8 (0x30 + v.toNat) else BitVec.ofNat 8 (0x61 + (v.toNat - 10))

/-- The 40-character lowercase hexadecimal string of a digest, first character first (rules R93 and R102). -/
def hexString (d : Words5) : List Byte :=
  (List.range 40).map fun k => hexL ((w160 d).extractLsb' (156 - 4 * k) 4)

/-- A character with `'A'` to `'F'` written in lowercase (rule R102; only used on hexadecimal characters). -/
def lowerHex (c : Byte) : Byte :=
  if 0x41 ≤ c.toNat ∧ c.toNat ≤ 0x46 then BitVec.ofNat 8 (c.toNat + 0x20) else c

end Sys2Proof.Machine
end

