-- ==== Sys2Proof/Machine/Ops.lean ====
section
/-! DEFINITION. The operations over the message buffer and the registers: reading and writing bytes of `MB` (spec
20_memory.md rules R40 and R44), raising a fault and the halted state (60_exceptions.md rules R132 and R133), the common
shape of a command (R134), reset (70_reset_and_hazards.md rule R160). -/

namespace Sys2Proof.Machine

open Sys2Proof

/-! ## The message buffer as data -/

/-- The byte at an address, or none where no byte holds a value (10_state.md rule R11). -/
def Memory.read : Memory → Nat → Option Byte
  | [], _ => none
  | (x, v) :: rest, a => if a = x then some v else Memory.read rest a

/-- Write one byte, keeping the addresses strictly rising. -/
def Memory.write : Memory → Nat → Byte → Memory
  | [], a, b => [(a, b)]
  | (x, v) :: rest, a, b =>
    if a < x then (a, b) :: (x, v) :: rest
    else if a = x then (a, b) :: rest
    else (x, v) :: Memory.write rest a b

/-- `MemWrite(a, n, bs)` for `n = |bs|`: the bytes at increasing addresses from `a` (00_scope.md section 5). -/
def Memory.writeList : Memory → Nat → List Byte → Memory
  | m, _, [] => m
  | m, a, b :: bs => Memory.writeList (Memory.write m a b) (a + 1) bs

/-- `MemRead(a, n)`, or none where one of the `n` bytes holds no value (00_scope.md section 5). -/
def Memory.readList (m : Memory) (a : Nat) : Nat → Option (List Byte)
  | 0 => some []
  | n + 1 =>
    match Memory.readList m a n, Memory.read m (a + n) with
    | some bs, some b => some (bs ++ [b])
    | _, _ => none

/-- The addresses are strictly rising and at least `lo`. -/
def Memory.wfFrom : Nat → Memory → Bool
  | _, [] => true
  | lo, (a, _) :: rest => decide (lo ≤ a) && Memory.wfFrom (a + 1) rest

/-- The canonical form: strictly rising addresses. An unlisted address holds no value, so no entry can equal it. -/
def Memory.wf (m : Memory) : Bool := Memory.wfFrom 0 m

/-- What a scan for the first `0x00` meets. -/
inductive Scan where
  /-- the first zero byte is at `a` -/
  | zeroAt (a : Nat)
  /-- every byte holds a value and none is zero -/
  | noZero
  /-- the byte at `a` holds no value -/
  | noValue (a : Nat)
  deriving DecidableEq, Repr

/-- Scan `n` bytes from address `a` on for the first `0x00` (43_result.md rule R123). -/
def Memory.scanZero (m : Memory) : Nat → Nat → Scan
  | _, 0 => .noZero
  | a, n + 1 =>
    match Memory.read m a with
    | none => .noValue a
    | some b => if b = 0 then .zeroAt a else Memory.scanZero m (a + 1) n

/-! ## State accessors -/

/-- `MSG_CAP` in bytes (00_scope.md rule R5). -/
def State.capacity (s : State) : Nat := s.cap.bytes

/-- `VEXT`, the valid extent (10_state.md rule R17). -/
def State.vext (s : State) : Nat := if s.padded then s.plen.toNat else s.len.toNat

/-- Halted: a fault was recorded (60_exceptions.md rule R133). -/
def State.halted (s : State) : Bool := s.err.isSome

/-- The byte of `MB` at an address, or none where it holds no value. -/
def State.byte (s : State) (a : Nat) : Option Byte := Memory.read s.mb a

/-! ## Stores -/

/-- Store `bs` from address `a` on and go on with `k`. A byte at or beyond `MSG_CAP` does not exist (20_memory.md rule
R40): the model faults there (log entry 5). -/
def storing (a : Nat) (bs : List Byte) (s : State) (k : State → Result) : Result :=
  if a + bs.length ≤ s.capacity then k { s with mb := Memory.writeList s.mb a bs }
  else .fault (.outsideBuffer a)

/-! ## Faults of the FMU and the common shape of a command -/

/-- `raise X(w)`: record the fault and the command word, and nothing else (60_exceptions.md rule R132). -/
def raise (x : Cause) (w : CmdWord) (s : State) : State := { s with err := some x, ecmd := w }

/-- A command word in the order of rule R134: discarded while halted (rule R133); then the first fault that applies, raised
with the word; then the effect, which is reached only with every check passed (rule R132).
`w` is the encoding of the command executed (log entry 8). -/
def command (w : CmdWord) (check : Option Cause) (s : State) (effect : Result) : Result :=
  if s.halted then .next s
  else
    match check with
    | some x => .next (raise x w s)
    | none => effect

/-- An illegal word: IllegalCommand, and no other effect (30_encoding.md rule R64). -/
def illegalWord (w : CmdWord) (s : State) : Result := command w (some .illegalCommand) s (.next s)

/-! ## Reset -/

/-- The reset event: every register takes its reset value and no byte of `MB` keeps a value (70_reset_and_hazards.md rule
R160); the build's capacity and what the host presents next are no state of the FMU (10_state.md rule R10). -/
def resetEvent (s : State) : State := { State.reset with cap := s.cap, port := s.port }

end Sys2Proof.Machine
end

