-- ==== Sys2Proof/Machine/Flags.lean ====
section
/-! DEFINITION. Fault codes and the checks of each command, in the order its rule makes them (spec 60_exceptions.md rules
R130, R131 and R134), and the flags a comparison writes (41_target_match.md rule R101). -/

namespace Sys2Proof.Machine

open Sys2Proof

/-- The code of a fault, as `ERR` holds it (60_exceptions.md rule R130). -/
def Cause.code : Cause → BitVec 4
  | .illegalCommand => 1
  | .sequence => 2
  | .invalidPrefix => 3
  | .overflow => 4
  | .lengthMismatch => 5
  | .noTerminator => 6

/-- The four bits of `ERR` (10_state.md rule R24). -/
def State.errCode (s : State) : BitVec 4 :=
  match s.err with
  | none => 0
  | some x => x.code

/-- HDR: Sequence when the buffer is frozen or not empty (42_framing.md rule R111). -/
def checkHdr (s : State) : Option Cause :=
  if s.padded = true ∨ s.len ≠ 0 then some .sequence else none

/-- PUTB: Sequence when frozen, then Overflow when full (40_padding.md rule R82). -/
def checkPutb (s : State) : Option Cause :=
  if s.padded = true then some .sequence
  else if s.len.toNat = s.capacity then some .overflow
  else none

/-- MARK: Sequence when frozen or already marked, then Overflow when 16 more bytes do not fit (42_framing.md rule R112). -/
def checkMark (s : State) : Option Cause :=
  if s.padded = true ∨ s.marked = true then some .sequence
  else if s.len.toNat + placeholderBytes > s.capacity then some .overflow
  else none

/-- PAD: Sequence when already padded, then LengthMismatch, then Overflow (40_padding.md rule R85). The difference
`LEN - HLEN` is compared as an integer, so that it never equals a body length by wrapping (log entry 10). -/
def checkPad (s : State) : Option Cause :=
  if s.padded = true then some .sequence
  else if s.hdrDone = true ∧ (s.len.toNat : Int) - s.hlen.toNat ≠ s.bodyLen.toNat then some .lengthMismatch
  else if padLen s.len.toNat > s.capacity then some .overflow
  else none

/-- SPLICE: Sequence when no placeholder was reserved (43_result.md rule R122). -/
def checkSplice (s : State) : Option Cause :=
  if s.marked = false then some .sequence else none

/-- STRIP: Sequence when the buffer is not frozen, then NoTerminator when the data hold no `0x00` (43_result.md rule
R123). -/
def checkStrip (s : State) : Option Cause :=
  if s.padded = false then some .sequence
  else if Memory.scanZero s.mb 0 s.len.toNat = .noZero then some .noTerminator
  else none

/-- PUTC: Sequence when the Target is frozen, then InvalidPrefix for a 41st or a non-hexadecimal character
(41_target_match.md rule R91). -/
def checkPutc (c : Byte) (s : State) : Option Cause :=
  if s.tlock = true then some .sequence
  else if s.prec.toNat = digestBits then some .invalidPrefix
  else if (hexval c).isNone = true then some .invalidPrefix
  else none

/-- The registers CMP writes, for the result `m` of the comparison: `MATCH` always, `TLOCK` always, the result slot on the
first match (41_target_match.md rule R101). -/
def recordMatch (m : Bool) (s : State) : State :=
  { s with
    matched := m
    tlock := true
    rvalid := s.rvalid || m
    result := if m = true ∧ s.rvalid = false then s.nonce else s.result }

end Sys2Proof.Machine
end

