-- ==== Sys2Proof/Machine/Framing.lean ====
section
/-! DEFINITION. The meanings of HDR and MARK (spec 42_framing.md rules R111 and R112). -/

namespace Sys2Proof.Machine

open Sys2Proof

/-- HDR `n` (42_framing.md rule R111). -/
def execHdr (n : Word) (s : State) : Result :=
  command (encode (.hdr n)) (checkHdr s) s <|
    storing 0 (commitHeader n) s fun t =>
      .next
        { t with
          len := BitVec.ofNat 32 (commitHeader n).length
          hlen := BitVec.ofNat 32 (commitHeader n).length
          bodyLen := n
          hdrDone := true }

/-- MARK (42_framing.md rule R112). -/
def execMark (s : State) : Result :=
  command (encode .mark) (checkMark s) s <|
    storing s.len.toNat (List.replicate placeholderBytes sentinel) s fun t =>
      .next
        { t with
          poff := s.len
          len := BitVec.ofNat 32 (s.len.toNat + placeholderBytes)
          marked := true }

end Sys2Proof.Machine
end

