-- ==== Sys2Proof/Machine/Nonce.lean ====
section
/-! DEFINITION. The meanings of SETNL, SETNH, SPLICE and STRIP (spec 43_result.md rules R120 to R123). -/

namespace Sys2Proof.Machine

open Sys2Proof

/-- SETNL `v` (43_result.md rule R120). -/
def execSetnl (v : Word) (s : State) : Result :=
  command (encode (.setnl v)) none s <| .next { s with nonce := s.nonce.extractLsb' 32 32 ++ v }

/-- SETNH `v` (43_result.md rule R121). -/
def execSetnh (v : Word) (s : State) : Result :=
  command (encode (.setnh v)) none s <| .next { s with nonce := v ++ s.nonce.extractLsb' 0 32 }

/-- SPLICE (43_result.md rule R122). -/
def execSplice (s : State) : Result :=
  command (encode .splice) (checkSplice s) s <| storing s.poff.toNat (hex16 s.nonce) s fun t => .next t

/-- The registers STRIP writes, for the first `0x00` at address `z` (43_result.md rule R123). -/
def recordObject (z : Nat) (s : State) : State :=
  { s with
    objOff := BitVec.ofNat 32 (z + 1)
    objLen := BitVec.ofNat 32 (s.len.toNat - (z + 1))
    stripped := true }

/-- STRIP (43_result.md rule R123). A byte with no value below `LEN` is read in no state that a run reaches: the model
faults there (log entry 3). -/
def execStrip (s : State) : Result :=
  command (encode .strip) (checkStrip s) s <|
    match Memory.scanZero s.mb 0 s.len.toNat with
    | .zeroAt z => .next (recordObject z s)
    | .noValue a => .fault (.noValue a)
    | .noZero => .next (raise .noTerminator (encode .strip) s)

end Sys2Proof.Machine
end

