-- ==== Sys2Proof/Machine/Padding.lean ====
section
/-! DEFINITION. The meanings of PUTB and PAD (spec 40_padding.md rules R82 and R85). -/

namespace Sys2Proof.Machine

open Sys2Proof

/-- PUTB `b` (40_padding.md rule R82). -/
def execPutb (b : Byte) (s : State) : Result :=
  command (encode (.putb b)) (checkPutb s) s <|
    storing s.len.toNat [b] s fun t => .next { t with len := BitVec.ofNat 32 (s.len.toNat + 1) }

/-- PAD (40_padding.md rule R85). Its three stores are at adjacent addresses from `LEN` on, so they are one store of
`padTail` (log entry 9). -/
def execPad (s : State) : Result :=
  command (encode .pad) (checkPad s) s <|
    storing s.len.toNat (padTail s.len.toNat) s fun t =>
      .next { t with plen := BitVec.ofNat 32 (padLen s.len.toNat), padded := true }

end Sys2Proof.Machine
end

