-- ==== Sys2Proof/Machine/Target.lean ====
section
/-! DEFINITION. The meanings of PUTC, CMP and SETD0 to SETD4 (spec 41_target_match.md rules R91, R96 to R101). -/

namespace Sys2Proof.Machine

open Sys2Proof

/-- Go on only with a precision that names bits of the Target: above 160 the spec defines nothing, and no run gets there
(41_target_match.md rule R94, 93_implementation_defined.md U10; log entry 6). -/
def withPrecision (s : State) (effect : Result) : Result :=
  if s.prec.toNat ≤ digestBits then effect else .refused (.precisionOutOfRange s.prec.toNat)

/-- The registers PUTC writes, for the digit `d` (41_target_match.md rule R91). -/
def recordDigit (d : BitVec 4) (s : State) : State :=
  { s with
    target := putTargetDigit s.target (s.prec.toNat / 4) d
    prec := BitVec.ofNat 8 (s.prec.toNat + 4) }

/-- PUTC `c` (41_target_match.md rule R91). -/
def execPutc (c : Byte) (s : State) : Result :=
  command (encode (.putc c)) (checkPutc c s) s <|
    withPrecision s <|
      match hexval c with
      | some d => .next (recordDigit d s)
      | none => .next (raise .invalidPrefix (encode (.putc c)) s)

/-- CMP (41_target_match.md rule R101). -/
def execCmp (s : State) : Result :=
  command (encode .cmp) none s <|
    withPrecision s <| .next (recordMatch (prefixMatch s.digest s.target s.prec.toNat) s)

/-- Write word `i` of the digest under test, the shared effect of SETD0 to SETD4 (41_target_match.md section 5). -/
def setDigestWord (w : CmdWord) (i : Nat) (v : Word) (s : State) : Result :=
  command w none s <| .next { s with digest := s.digest.set i v }

/-- SETD0 `v` (41_target_match.md rule R96). -/
def execSetd0 (v : Word) (s : State) : Result := setDigestWord (encode (.setd0 v)) 0 v s

/-- SETD1 `v` (41_target_match.md rule R97). -/
def execSetd1 (v : Word) (s : State) : Result := setDigestWord (encode (.setd1 v)) 1 v s

/-- SETD2 `v` (41_target_match.md rule R98). -/
def execSetd2 (v : Word) (s : State) : Result := setDigestWord (encode (.setd2 v)) 2 v s

/-- SETD3 `v` (41_target_match.md rule R99). -/
def execSetd3 (v : Word) (s : State) : Result := setDigestWord (encode (.setd3 v)) 3 v s

/-- SETD4 `v` (41_target_match.md rule R100). -/
def execSetd4 (v : Word) (s : State) : Result := setDigestWord (encode (.setd4 v)) 4 v s

end Sys2Proof.Machine
end

