-- ==== Sys2Proof/Machine/Dispatch.lean ====
section
/-! DEFINITION. One arm per command (spec 30_encoding.md rule R63). -/

namespace Sys2Proof.Machine

open Sys2Proof

def exec (i : Instr) (s : State) : Host.Outcome State Fault Refusal :=
  match i with
  | .hdr n => Sys2Proof.Machine.execHdr n s
  | .putb b => Sys2Proof.Machine.execPutb b s
  | .mark => Sys2Proof.Machine.execMark s
  | .pad => Sys2Proof.Machine.execPad s
  | .setnl v => Sys2Proof.Machine.execSetnl v s
  | .setnh v => Sys2Proof.Machine.execSetnh v s
  | .splice => Sys2Proof.Machine.execSplice s
  | .strip => Sys2Proof.Machine.execStrip s
  | .putc c => Sys2Proof.Machine.execPutc c s
  | .cmp => Sys2Proof.Machine.execCmp s
  | .setd0 v => Sys2Proof.Machine.execSetd0 v s
  | .setd1 v => Sys2Proof.Machine.execSetd1 v s
  | .setd2 v => Sys2Proof.Machine.execSetd2 v s
  | .setd3 v => Sys2Proof.Machine.execSetd3 v s
  | .setd4 v => Sys2Proof.Machine.execSetd4 v s

end Sys2Proof.Machine
end

