-- ==== Sys2Proof/Machine/Step.lean ====
section
/-! DEFINITION. One step of the FMU: it takes the oldest event the host has presented (spec 30_encoding.md rule R66,
70_reset_and_hazards.md rules R160 and R168). -/

namespace Sys2Proof.Machine

open Sys2Proof

/-- The step on a command word (30_encoding.md rule R66): no change while halted, where the word is not decoded
(60_exceptions.md rule R133); IllegalCommand for an illegal word; otherwise the command by its rule. -/
def execWord (w : CmdWord) (s : State) : Host.Outcome State Fault Refusal :=
  if s.halted then .next s
  else
    match decode w with
    | .command i => exec i s
    | .illegal _ => illegalWord w s

/-- One step. With nothing presented the FMU is idle and keeps its state (60_exceptions.md rules R137 and R140); otherwise
the oldest event is taken from the port, and the rest of the port is what the host presents next (log entry 1). -/
def step (s : State) : Host.Outcome State Fault Refusal :=
  match s.port with
  | [] => .next s
  | .reset :: rest => .next (resetEvent { s with port := rest })
  | .command w :: rest => execWord w { s with port := rest }

/-- The host presents a word ahead of everything it has presented so far, so that the next step takes it (log entry 1). -/
def State.withFetchWord (s : State) (nbits w : Nat) : State :=
  { s with port := .command (tableWord nbits w) :: s.port }

end Sys2Proof.Machine
end

