-- ==== Sys2Proof/Machine/Assembler.lean ====
section
/-! DEFINITION. The assembler syntax of the spec's listings and its pseudo-instructions (spec 30_encoding.md rules R67 and
R68). They are conveniences of the listings: no step of the FMU reads them. Source text is a list of bytes; what
rule R67 does not say of a line is log entry 11. -/

namespace Sys2Proof.Machine

open Sys2Proof

/-- The mnemonic in capitals, as bytes (rule R67). -/
def mnemonicText : Mnemonic → List Byte
  | .hdr => [0x48, 0x44, 0x52]
  | .putb => [0x50, 0x55, 0x54, 0x42]
  | .mark => [0x4D, 0x41, 0x52, 0x4B]
  | .pad => [0x50, 0x41, 0x44]
  | .setnl => [0x53, 0x45, 0x54, 0x4E, 0x4C]
  | .setnh => [0x53, 0x45, 0x54, 0x4E, 0x48]
  | .splice => [0x53, 0x50, 0x4C, 0x49, 0x43, 0x45]
  | .strip => [0x53, 0x54, 0x52, 0x49, 0x50]
  | .putc => [0x50, 0x55, 0x54, 0x43]
  | .cmp => [0x43, 0x4D, 0x50]
  | .setd0 => [0x53, 0x45, 0x54, 0x44, 0x30]
  | .setd1 => [0x53, 0x45, 0x54, 0x44, 0x31]
  | .setd2 => [0x53, 0x45, 0x54, 0x44, 0x32]
  | .setd3 => [0x53, 0x45, 0x54, 0x44, 0x33]
  | .setd4 => [0x53, 0x45, 0x54, 0x44, 0x34]

/-- The 15 mnemonics in the order of rule R63. -/
def allMnemonics : List Mnemonic :=
  [.hdr, .putb, .mark, .pad, .setnl, .setnh, .splice, .strip, .putc, .cmp, .setd0, .setd1, .setd2, .setd3, .setd4]

/-- The command a source line stands for; an ill-formed line is an assembly error (rule R67). -/
def instrOfLine (l : SourceLine) : Option Instr :=
  if l.wellFormed then
    let v := l.operand.getD 0
    some <|
      match l.mnemonic with
      | .hdr => .hdr (BitVec.ofNat 32 v)
      | .putb => .putb (BitVec.ofNat 8 v)
      | .mark => .mark
      | .pad => .pad
      | .setnl => .setnl (BitVec.ofNat 32 v)
      | .setnh => .setnh (BitVec.ofNat 32 v)
      | .splice => .splice
      | .strip => .strip
      | .putc => .putc (BitVec.ofNat 8 v)
      | .cmp => .cmp
      | .setd0 => .setd0 (BitVec.ofNat 32 v)
      | .setd1 => .setd1 (BitVec.ofNat 32 v)
      | .setd2 => .setd2 (BitVec.ofNat 32 v)
      | .setd3 => .setd3 (BitVec.ofNat 32 v)
      | .setd4 => .setd4 (BitVec.ofNat 32 v)
  else none

/-! ## Reading one line of text (rule R67) -/

/-- Drop leading spaces. -/
def skipSpaces : List Byte → List Byte
  | [] => []
  | c :: r => if c = 0x20 then skipSpaces r else c :: r

/-- The text up to the next space, comma or semicolon, and the rest. -/
def takeToken : List Byte → List Byte × List Byte
  | [] => ([], [])
  | c :: r =>
    if c = 0x20 ∨ c = 0x2C ∨ c = 0x3B then ([], c :: r)
    else
      let p := takeToken r
      (c :: p.1, p.2)

/-- Nothing more on the line but spaces and a comment after a semicolon. -/
def endsHere (r : List Byte) : Bool :=
  match skipSpaces r with
  | [] => true
  | c :: _ => c == 0x3B

/-- Add the digits of a numeral in a base, most significant first, to `acc`; none for a character that is no digit of the
base. -/
def numeral (base : Nat) : Nat → List Byte → Option Nat
  | acc, [] => some acc
  | acc, c :: r =>
    match hexval c with
    | none => none
    | some d => if d.toNat < base then numeral base (acc * base + d.toNat) r else none

/-- A decimal number, or a hexadecimal number after `0x`; at least one digit. -/
def numberOf : List Byte → Option Nat
  | [] => none
  | 0x30 :: 0x78 :: [] => none
  | 0x30 :: 0x78 :: r => numeral 16 0 r
  | r => numeral 10 0 r

/-- The byte an escape stands for: `\n` is 0x0A and `\0` is 0x00, the two rule R67 lists. -/
def escapeOf (c : Byte) : Option Byte :=
  if c = 0x6E then some 0x0A else if c = 0x30 then some 0x00 else none

/-- An operand at the head of the text, and what follows it: a character in single quotes, or a number. -/
def operandOf : List Byte → Option (Nat × List Byte)
  | 0x27 :: 0x5C :: e :: 0x27 :: r => (escapeOf e).map fun b => (b.toNat, r)
  | 0x27 :: c :: 0x27 :: r => some (c.toNat, r)
  | r => (numberOf (takeToken r).1).map fun v => (v, (takeToken r).2)

/-- The mnemonic a token spells. -/
def mnemonicOf (t : List Byte) : Option Mnemonic := allMnemonics.find? fun m => mnemonicText m == t

/-! ## Pseudo-instructions (rule R68) -/

/-- The pseudo-instructions. -/
inductive Pseudo where
  /-- `PUTS "s"` -/
  | puts (s : List Byte)
  /-- `PREFIX "h"` -/
  | prefixOf (h : List Byte)
  /-- `SETN v` -/
  | setn (v : Nonce)
  /-- `DIGEST d0, d1, d2, d3, d4` -/
  | digest (d : Words5)
  /-- `DIGESTX "x"`, for 40 hexadecimal characters -/
  | digestx (x : List Byte)
  deriving DecidableEq, Repr

/-- `DIGEST`: the five words, word 0 first. -/
def digestCommands (d : Words5) : List Instr := [.setd0 d.w0, .setd1 d.w1, .setd2 d.w2, .setd3 d.w3, .setd4 d.w4]

/-- The expansion of a pseudo-instruction; `DIGESTX` of anything but 40 hexadecimal characters has none. -/
def Pseudo.expand : Pseudo → Option (List Instr)
  | .puts s => some (s.map Instr.putb)
  | .prefixOf h => some (h.map Instr.putc)
  | .setn v => some [.setnh (v.extractLsb' 32 32), .setnl (v.extractLsb' 0 32)]
  | .digest d => some (digestCommands d)
  | .digestx x =>
    if x.length = 40 then
      match targetEncode x with
      | some (d, _) => some (digestCommands d)
      | none => none
    else none

/-- The five pseudo-instructions by name. -/
inductive PseudoName where
  | puts | prefixOf | setn | digest | digestx
  deriving DecidableEq, Repr

/-- The name of a pseudo-instruction, as bytes (rule R68). -/
def pseudoText : PseudoName → List Byte
  | .puts => [0x50, 0x55, 0x54, 0x53]
  | .prefixOf => [0x50, 0x52, 0x45, 0x46, 0x49, 0x58]
  | .setn => [0x53, 0x45, 0x54, 0x4E]
  | .digest => [0x44, 0x49, 0x47, 0x45, 0x53, 0x54]
  | .digestx => [0x44, 0x49, 0x47, 0x45, 0x53, 0x54, 0x58]

/-- The pseudo-instruction a token names. -/
def pseudoNameOf (t : List Byte) : Option PseudoName :=
  [.puts, .prefixOf, .setn, .digest, .digestx].find? fun m => pseudoText m == t

/-- The bytes of a string up to its closing double quote, escapes replaced as in rule R67, and what follows it. -/
def stringBody : List Byte → Option (List Byte × List Byte)
  | [] => none
  | 0x22 :: r => some ([], r)
  | 0x5C :: e :: r =>
    match escapeOf e, stringBody r with
    | some b, some (bs, after) => some (b :: bs, after)
    | _, _ => none
  | c :: r => (stringBody r).map fun p => (c :: p.1, p.2)

/-- A string in double quotes and nothing more on the line but a comment. -/
def stringOperand : List Byte → Option (List Byte)
  | 0x22 :: r =>
    match stringBody r with
    | some (bs, after) => if endsHere after then some bs else none
    | none => none
  | _ => none

/-- `n` more numbers below `2^32`, each after a comma, and nothing more on the line but a comment. -/
def moreWords : Nat → List Byte → Option (List Word)
  | 0, r => if endsHere r then some [] else none
  | n + 1, r =>
    match skipSpaces r with
    | 0x2C :: r' =>
      match operandOf (skipSpaces r') with
      | some (v, after) => if v < 2 ^ 32 then (moreWords n after).map fun ws => BitVec.ofNat 32 v :: ws else none
      | none => none
    | _ => none

/-- The operands of `DIGEST`: five numbers below `2^32` with commas between them. -/
def fiveWords (r : List Byte) : Option Words5 :=
  match operandOf r with
  | some (v, after) =>
    if v < 2 ^ 32 then
      match moreWords 4 after with
      | some [w1, w2, w3, w4] => some ⟨BitVec.ofNat 32 v, w1, w2, w3, w4⟩
      | _ => none
    else none
  | none => none

/-- The pseudo-instruction that a name and the text behind it stand for (rule R68). -/
def pseudoOf (m : PseudoName) (r : List Byte) : Option Pseudo :=
  match m with
  | .puts => (stringOperand r).map .puts
  | .prefixOf => (stringOperand r).map .prefixOf
  | .setn =>
    match operandOf r with
    | some (v, after) => if v < 2 ^ 64 ∧ endsHere after then some (.setn (BitVec.ofNat 64 v)) else none
    | none => none
  | .digest => (fiveWords r).map .digest
  | .digestx => (stringOperand r).map .digestx

/-! ## One line (rules R67 and R68) -/

/-- The command that a mnemonic and the text behind it stand for (rule R67). -/
def commandOf (m : Mnemonic) (r : List Byte) : Option Instr :=
  if endsHere r then instrOfLine ⟨m, none⟩
  else
    match operandOf r with
    | some (v, after) => if endsHere after then instrOfLine ⟨m, some v⟩ else none
    | none => none

/-- One line of source: the commands it stands for, none of them on a blank or comment line, one for a command, as many as
its expansion has for a pseudo-instruction. An assembly error is `none`. -/
def assembleLine (text : List Byte) : Option (List Instr) :=
  let body := skipSpaces text
  if endsHere body then some []
  else
    let token := (takeToken body).1
    let rest := skipSpaces (takeToken body).2
    match mnemonicOf token, pseudoNameOf token with
    | some m, _ => (commandOf m rest).map fun i => [i]
    | none, some p => (pseudoOf p rest).bind Pseudo.expand
    | none, none => none

end Sys2Proof.Machine
end

