-- ==== Sys2Proof/Machine/Ports.lean ====
section
/-! DEFINITION. The read ports (spec 10_state.md rules R25 to R28) and the message as the digest engine reads it
(20_memory.md rule R54). They are functions of the state: a read changes nothing (log entry 12). -/

namespace Sys2Proof.Machine

open Sys2Proof

/-- A flag as one bit. -/
def flagBit (b : Bool) : BitVec 1 := if b then 1 else 0

/-- `STATUS`: the flags packed, bits 31:11 read as 0 (rule R25). -/
def State.status (s : State) : Word :=
  (0 : BitVec 21) ++ flagBit s.rvalid ++ flagBit s.matched ++ flagBit s.tlock ++ flagBit s.stripped ++ flagBit s.padded
    ++ flagBit s.marked ++ flagBit s.hdrDone ++ s.errCode

/-- `RegRead(n)` (rule R26). -/
def State.regRead (s : State) (n : BitVec 8) : Word :=
  match n.toNat with
  | 0 => s.status
  | 1 => s.len
  | 2 => s.hlen
  | 3 => s.bodyLen
  | 4 => s.poff
  | 5 => s.plen
  | 6 => s.objOff
  | 7 => s.objLen
  | 8 => s.nonce.extractLsb' 0 32
  | 9 => s.nonce.extractLsb' 32 32
  | 10 => s.prec.setWidth 32
  | 11 => s.target.w0
  | 12 => s.target.w1
  | 13 => s.target.w2
  | 14 => s.target.w3
  | 15 => s.target.w4
  | 16 => s.digest.w0
  | 17 => s.digest.w1
  | 18 => s.digest.w2
  | 19 => s.digest.w3
  | 20 => s.digest.w4
  | 21 => s.result.extractLsb' 0 32
  | 22 => s.result.extractLsb' 32 32
  | 23 => s.ecmd.extractLsb' 0 32
  | 24 => (s.ecmd.extractLsb' 32 8).setWidth 32
  | _ => 0

/-- `BufRead(a)`: the byte, or none ("no value": the read is refused) at or beyond the valid extent (rule R27). -/
def State.bufRead (s : State) (a : Word) : Option Byte :=
  if a.toNat < s.vext then s.byte a.toNat else none

/-- `FAULT`: the level output (rule R28). -/
def State.faultOut (s : State) : Bool := s.err.isSome

/-- How many 64-byte blocks the padded message has; none before PAD (20_memory.md rule R54). -/
def State.messageBlocks (s : State) : Nat := if s.padded then s.plen.toNat / blockBytes else 0

/-- Block `k` of the padded message, its 64 bytes in increasing address order (20_memory.md rule R54). -/
def State.messageBlock (s : State) (k : Nat) : Option (List Byte) :=
  if k < s.messageBlocks then Memory.readList s.mb (blockBytes * k) blockBytes else none

/-- The object window `MB[OBJOFF .. OBJOFF+OBJLEN-1]`, the final object bytes, after STRIP (10_state.md rule R16). -/
def State.objectBytes (s : State) : Option (List Byte) :=
  if s.stripped then Memory.readList s.mb s.objOff.toNat s.objLen.toNat else none

end Sys2Proof.Machine
end

