-- ==== Sys2Proof/Safety.lean ====
section
/-! DEFINITION. What claims about the FMU are stated in: the invariants of a run (spec 10_state.md rule R32), the table of
faults (60_exceptions.md rules R130, R131 and R134), sequences of commands. -/

namespace Sys2Proof.Machine

open Sys2Proof

/-! ## Invariants -/

/-- The nine items of 10_state.md rule R32, and what rule R11 says of the buffer: the listed bytes are in canonical form
and are exactly those below the valid extent. -/
structure Inv (s : State) : Prop where
  /-- the model's own: the buffer is in canonical form -/
  canonical : Memory.wf s.mb = true
  /-- rule R11: every byte below the valid extent was written -/
  written : ∀ a, a < s.vext → (s.byte a).isSome = true
  /-- rule R11: no other byte holds a value -/
  noOther : ∀ c ∈ s.mb, c.1 < s.vext
  /-- item 1 -/
  extent : s.len.toNat ≤ s.vext ∧ s.vext ≤ s.capacity
  /-- item 2, no header -/
  noHeader : s.hdrDone = false → s.hlen = 0 ∧ s.bodyLen = 0
  /-- item 2, a header -/
  header : s.hdrDone = true →
    s.hlen.toNat = 8 + (dec s.bodyLen.toNat).length ∧ 9 ≤ s.hlen.toNat ∧ s.hlen.toNat ≤ 18 ∧ s.hlen.toNat ≤ s.len.toNat ∧
      Memory.readList s.mb 0 s.hlen.toNat = some (commitHeader s.bodyLen)
  /-- item 3, no placeholder -/
  noPlaceholder : s.marked = false → s.poff = 0
  /-- items 3 and 4, a placeholder: inside the data, behind the header, 16 uppercase hexadecimal characters -/
  placeholder : s.marked = true →
    s.poff.toNat + 16 ≤ s.len.toNat ∧ (s.hdrDone = true → s.hlen.toNat ≤ s.poff.toNat) ∧
      ∀ i, i < 16 → ∃ v : BitVec 4, s.byte (s.poff.toNat + i) = some (hexU v)
  /-- item 5, not padded -/
  notPadded : s.padded = false → s.plen = 0
  /-- item 5, padded -/
  isPadded : s.padded = true →
    s.plen.toNat = padLen s.len.toNat ∧
      Memory.readList s.mb 0 s.plen.toNat = (Memory.readList s.mb 0 s.len.toNat).map Machine.pad ∧
      (s.hdrDone = true → s.len.toNat = s.hlen.toNat + s.bodyLen.toNat)
  /-- item 6, no object window -/
  notStripped : s.stripped = false → s.objOff = 0 ∧ s.objLen = 0
  /-- item 6, an object window: it starts after the first `0x00` of the data and ends with the data -/
  isStripped : s.stripped = true →
    s.padded = true ∧ 1 ≤ s.objOff.toNat ∧ s.objOff.toNat ≤ s.len.toNat ∧
      s.objOff.toNat + s.objLen.toNat = s.len.toNat ∧ s.byte (s.objOff.toNat - 1) = some 0 ∧
      (∀ a, a < s.objOff.toNat - 1 → s.byte a ≠ some 0) ∧
      (s.hdrDone = true → s.objOff = s.hlen ∧ s.objLen = s.bodyLen)
  /-- item 7 -/
  precision : s.prec.toNat % 4 = 0 ∧ s.prec.toNat ≤ 160 ∧ (w160 s.target).toNat % 2 ^ (160 - s.prec.toNat) = 0
  /-- item 8 -/
  resultSlot : (s.rvalid = false → s.result = 0) ∧ (s.rvalid = true → s.tlock = true) ∧
    (s.matched = true → s.tlock = true ∧ s.rvalid = true)
  /-- item 9; that `ERR` is one of 0 to 6 is the type of `err` -/
  faultRecord : s.err = none → s.ecmd = 0

/-! ## Illegal words -/

/-- The 15 opcodes (30_encoding.md rule R64, case 1). -/
def assignedOpcodes : List Byte :=
  [0x01, 0x02, 0x03, 0x04, 0x10, 0x11, 0x12, 0x13, 0x20, 0x21, 0x28, 0x29, 0x2A, 0x2B, 0x2C]

/-- The format N opcodes: MARK, PAD, SPLICE, STRIP, CMP (30_encoding.md rule R61). -/
def noOperandOpcodes : List Byte := [0x03, 0x04, 0x12, 0x13, 0x21]

/-- The format B opcodes: PUTB, PUTC (30_encoding.md rule R61). -/
def byteOperandOpcodes : List Byte := [0x02, 0x20]

/-- The three cases of an illegal word (30_encoding.md rule R64): an unassigned opcode; a format N opcode with `imm != 0`; a
format B opcode with `imm[31:8] != 0`. -/
def isIllegal (w : CmdWord) : Prop :=
  w.extractLsb' 32 8 ∉ assignedOpcodes ∨
    (w.extractLsb' 32 8 ∈ noOperandOpcodes ∧ w.extractLsb' 0 32 ≠ 0) ∨
    (w.extractLsb' 32 8 ∈ byteOperandOpcodes ∧ w.extractLsb' 8 24 ≠ 0)

/-! ## Faults -/

/-- The Sequence conditions (60_exceptions.md rule R131): the commands it does not list raise none. -/
def sequenceCondition : Instr → State → Prop
  | .hdr _, s => s.padded = true ∨ s.len ≠ 0
  | .putb _, s => s.padded = true
  | .mark, s => s.padded = true ∨ s.marked = true
  | .pad, s => s.padded = true
  | .splice, s => s.marked = false
  | .strip, s => s.padded = false
  | .putc _, s => s.tlock = true
  | .setnl _, _ => False
  | .setnh _, _ => False
  | .cmp, _ => False
  | .setd0 _, _ => False
  | .setd1 _, _ => False
  | .setd2 _, _ => False
  | .setd3 _, _ => False
  | .setd4 _, _ => False

/-- Every data byte holds a value and none is `0x00` (the cause of NoTerminator, 43_result.md rule R123). -/
def noTerminatorCondition (s : State) : Prop :=
  ∀ a, a < s.len.toNat → ∃ b, s.byte a = some b ∧ b ≠ 0

/-- The causes of rule R130, each for the commands that rule lists beside it. -/
def causeApplies (x : Cause) (w : CmdWord) (s : State) : Prop :=
  match x, decode w with
  | .illegalCommand, .illegal _ => True
  | .sequence, .command i => sequenceCondition i s
  | .invalidPrefix, .command (.putc c) => s.prec = 160 ∨ hexval c = none
  | .overflow, .command (.putb _) => s.len.toNat = s.capacity
  | .overflow, .command .mark => s.len.toNat + 16 > s.capacity
  | .overflow, .command .pad => padLen s.len.toNat > s.capacity
  | .lengthMismatch, .command .pad =>
    s.hdrDone = true ∧ (s.len.toNat : Int) - (s.hlen.toNat : Int) ≠ (s.bodyLen.toNat : Int)
  | .noTerminator, .command .strip => noTerminatorCondition s
  | _, _ => False

/-- The order in which the causes of one word are looked at (60_exceptions.md rule R134). -/
def faultOrder : List Cause :=
  [.illegalCommand, .sequence, .invalidPrefix, .lengthMismatch, .overflow, .noTerminator]

/-- `x` is the first cause, in the order of rule R134, that applies. -/
def firstCause (x : Cause) (w : CmdWord) (s : State) : Prop :=
  ∃ before after, faultOrder = before ++ x :: after ∧ causeApplies x w s ∧ ∀ y ∈ before, ¬ causeApplies y w s

/-! ## Sequences of commands -/

/-- Execute commands one after the other, each to completion, in order (20_memory.md rule R50). -/
def execAll : List Instr → State → Result
  | [], s => .next s
  | i :: rest, s =>
    match exec i s with
    | .next t => execAll rest t
    | .fault r => .fault r
    | .refused r => .refused r

/-- The commands that append the bytes `bs` (30_encoding.md rule R68, PUTS). -/
def putAll (bs : List Byte) : List Instr := bs.map Instr.putb

/-- The commands that enter the prefix `cs` (30_encoding.md rule R68, PREFIX). -/
def prefixAll (cs : List Byte) : List Instr := cs.map Instr.putc

/-- The prefix character a command enters. -/
def enteredCharacter : Instr → Option Byte
  | .hdr _ => none
  | .putb _ => none
  | .mark => none
  | .pad => none
  | .setnl _ => none
  | .setnh _ => none
  | .splice => none
  | .strip => none
  | .putc c => some c
  | .cmp => none
  | .setd0 _ => none
  | .setd1 _ => none
  | .setd2 _ => none
  | .setd3 _ => none
  | .setd4 _ => none

/-- The prefix characters that the commands enter, in order. -/
def charactersOf (is : List Instr) : List Byte := is.filterMap enteredCharacter

/-- The text of a command as rule R67 writes it, its operand in decimal. -/
def renderLine (mnemonicBytes : List Byte) (operand : Option Nat) : List Byte :=
  match operand with
  | none => mnemonicBytes
  | some v => mnemonicBytes ++ [0x20] ++ dec v

/-- The state after reset for a build of capacity `c`. -/
def resetFor (c : Capacity) : State := { State.reset with cap := c }

/-- Memory is the same outside the `n` bytes from address `a` on. -/
def sameOutside (s t : State) (a n : Nat) : Prop := ∀ x, ¬ (a ≤ x ∧ x < a + n) → t.byte x = s.byte x

/-- Every byte of the buffer is the same. -/
def sameBuffer (s t : State) : Prop := ∀ x, t.byte x = s.byte x

/-- A command raised a fault: `ERR` and `ECMD` were written and nothing else (60_exceptions.md rule R132). -/
def onlyRaised (i : Instr) (s t : State) : Prop := ∃ x, s.err = none ∧ t = { s with err := some x, ecmd := encode i }

end Sys2Proof.Machine
end

