-- ==== Sys2Proof/Certificates/Slice0/Obligations.lean ====
section
/-! DEFINITION. What is claimed of the FMU, for the provers. Each docstring names the rule of spec/ its statement formalises. -/

open Sys2Proof Sys2Proof.Machine

/-! ## Encoding -/

/-- 30_encoding.md section 4: `Decode(Encode(c)) = c` for every command `c`. -/
def Obligations.DecodeEncodeRoundTrip : Prop := ∀ i : Instr, decode (encode i) = .command i

/-- 30_encoding.md section 4: `Encode(Decode(w)) = w` for every legal `w`. -/
def Obligations.EncodeDecodeRoundTrip : Prop := ∀ (w : CmdWord) (i : Instr), decode w = .command i → encode i = w

/-- Rule R63: the map's rows with opcode and format, what a row's pattern and mask are, a word decodes to a command of a
row exactly when the row selects it, and no word is selected by two rows. -/
def Obligations.OpcodeMapSelectsCommands : Prop :=
  (opcodeMap.map (fun r => (r.mnemonic, opcode r.mnemonic, r.mnemonic.format)) =
      [(.hdr, 0x01, .w), (.putb, 0x02, .b), (.mark, 0x03, .n), (.pad, 0x04, .n), (.setnl, 0x10, .w), (.setnh, 0x11, .w),
        (.splice, 0x12, .n), (.strip, 0x13, .n), (.putc, 0x20, .b), (.cmp, 0x21, .n), (.setd0, 0x28, .w),
        (.setd1, 0x29, .w), (.setd2, 0x2A, .w), (.setd3, 0x2B, .w), (.setd4, 0x2C, .w)]) ∧
    (∀ r ∈ opcodeMap, r.pattern = opcode r.mnemonic ++ (0 : Word) ∧
      r.mask = (0xFF : Byte) ++
        (match r.mnemonic.format with
          | .n => (0xFFFFFFFF : Word)
          | .b => (0xFFFFFF00 : Word)
          | .w => (0 : Word))) ∧
    (∀ (w : CmdWord) (m : Mnemonic), (∃ i, decode w = .command i ∧ i.mnemonic = m) ↔
      ∃ r ∈ opcodeMap, r.mnemonic = m ∧ w &&& r.mask = r.pattern) ∧
    (∀ (w : CmdWord), ∀ r ∈ opcodeMap, ∀ r' ∈ opcodeMap,
      w &&& r.mask = r.pattern → w &&& r'.mask = r'.pattern → r = r')

/-- Rule R64: a word is illegal exactly when no row of the opcode map selects it, 241 of the 256 opcodes are unassigned,
the all-zero and the all-ones word are illegal, and an illegal word executed with `ERR = 0` raises IllegalCommand and has no
other effect. -/
def Obligations.IllegalWordRaises : Prop :=
  (∀ w : CmdWord, isIllegal w ↔ ∀ r ∈ opcodeMap, w &&& r.mask ≠ r.pattern) ∧
    ((List.range 256).filter (fun n => decide (BitVec.ofNat 8 n ∉ assignedOpcodes))).length = 241 ∧
    isIllegal 0x0000000000 ∧ isIllegal 0xFFFFFFFFFF ∧
    (∀ (w : CmdWord) (s : State), s.err = none → isIllegal w →
      execWord w s = .next { s with err := some .illegalCommand, ecmd := w })

/-- 30_encoding.md section 3: words written out from the encodings of rules R60 and R63 decode to their commands, one or
more of every family. -/
def Obligations.SampleWordsDecode : Prop :=
  decode 0x0100000013 = .command (.hdr 19) ∧ decode 0x0200000061 = .command (.putb 0x61) ∧
    decode 0x0300000000 = .command .mark ∧ decode 0x0400000000 = .command .pad ∧
    decode 0x1089ABCDEF = .command (.setnl 0x89ABCDEF) ∧ decode 0x1200000000 = .command .splice ∧
    decode 0x2000000063 = .command (.putc 0x63) ∧ decode 0x2100000000 = .command .cmp ∧
    decode 0x2CFFFFFFFF = .command (.setd4 0xFFFFFFFF) ∧ decode 0x0500000000 = .illegal .unknownOpcode ∧
    decode 0x0300000001 = .illegal .operandOfNoOperandCommand ∧ decode 0x2000000161 = .illegal .operandAboveByte

/-- 30_encoding.md section 4 (the step on a word), 70_reset_and_hazards.md section 1 (reset), 60_exceptions.md section 8
(idle), and the model's own carrying of the host's events in `port` (log entry 1): the step takes the oldest event from the
port; it executes the command a word decodes to, executes any other word by `execWord`, resets on a reset event, and changes
nothing when nothing is presented. -/
def Obligations.StepRunsDecodedCommand : Prop :=
  (∀ (s : State) (w : CmdWord) (i : Instr) (rest : List HostEvent), s.port = .command w :: rest →
      decode w = .command i → step s = exec i { s with port := rest }) ∧
    (∀ (s : State) (w : CmdWord) (rest : List HostEvent), s.port = .command w :: rest →
      step s = execWord w { s with port := rest }) ∧
    (∀ (s : State) (rest : List HostEvent), s.port = .reset :: rest → step s = .next (resetEvent { s with port := rest })) ∧
    (∀ s : State, s.port = [] → step s = .next s)

/-- 30_encoding.md section 6: the line that writes a command, its operand in decimal, assembles to that command. -/
def Obligations.AssemblerReadsBackLine : Prop :=
  ∀ i : Instr, assembleLine (renderLine (mnemonicText i.mnemonic) i.operand) = some [i]

/-- 30_encoding.md section 6: the expansions of the five pseudo-instructions. -/
def Obligations.PseudoInstructionsExpand : Prop :=
  (∀ s, (Pseudo.puts s).expand = some (s.map Instr.putb)) ∧
    (∀ h, (Pseudo.prefixOf h).expand = some (h.map Instr.putc)) ∧
    (∀ v : Nonce, (Pseudo.setn v).expand = some [.setnh (v.extractLsb' 32 32), .setnl (v.extractLsb' 0 32)]) ∧
    (∀ d : Words5, (Pseudo.digest d).expand =
      some [.setd0 d.w0, .setd1 d.w1, .setd2 d.w2, .setd3 d.w3, .setd4 d.w4]) ∧
    (∀ (x : List Byte) (d : Words5) (p : Nat), x.length = 40 → targetEncode x = some (d, p) →
      (Pseudo.digestx x).expand = (Pseudo.digest d).expand)

/-! ## Functions -/

/-- Rule R6: the value of each hexadecimal character, in either case, and none for every other byte. -/
def Obligations.HexvalTable : Prop :=
  ∀ c : Byte,
    (0x30 ≤ c.toNat ∧ c.toNat ≤ 0x39 → (hexval c).map BitVec.toNat = some (c.toNat - 0x30)) ∧
    (0x41 ≤ c.toNat ∧ c.toNat ≤ 0x46 → (hexval c).map BitVec.toNat = some (c.toNat - 0x41 + 10)) ∧
    (0x61 ≤ c.toNat ∧ c.toNat ≤ 0x66 → (hexval c).map BitVec.toNat = some (c.toNat - 0x61 + 10)) ∧
    (¬ (0x30 ≤ c.toNat ∧ c.toNat ≤ 0x39) → ¬ (0x41 ≤ c.toNat ∧ c.toNat ≤ 0x46) →
      ¬ (0x61 ≤ c.toNat ∧ c.toNat ≤ 0x66) → hexval c = none)

/-- Rule R7: the uppercase character of a hexadecimal digit, the code point of 'F', and that `hexval` reads it back. -/
def Obligations.UppercaseHexDigit : Prop :=
  (∀ v : BitVec 4, (v.toNat ≤ 9 → (hexU v).toNat = 0x30 + v.toNat) ∧
      (10 ≤ v.toNat → (hexU v).toNat = 0x41 + (v.toNat - 10)) ∧ hexval (hexU v) = some v) ∧
    hexU 15 = 0x46

/-- Rule R8: a nonce as 16 characters, character `i` that of bits `63-4i : 60-4i`, and the rule's example. -/
def Obligations.NonceAsSixteenCharacters : Prop :=
  (∀ n : Nonce, (hex16 n).length = 16 ∧
      ∀ i, i < 16 → (hex16 n)[i]? = some (hexU (BitVec.ofNat 4 (n.toNat / 2 ^ (60 - 4 * i))))) ∧
    hex16 0xFF = List.replicate 14 0x30 ++ [0x46, 0x46]

/-- Rule R9: the decimal numeral, by its recursion, its length, zero, and the rule's example. -/
def Obligations.DecimalNumeral : Prop :=
  (∀ n : Nat, n < 10 → dec n = [BitVec.ofNat 8 (0x30 + n)]) ∧
    (∀ n : Nat, 10 ≤ n → n < 2 ^ 32 → dec n = dec (n / 10) ++ [BitVec.ofNat 8 (0x30 + n % 10)]) ∧
    (∀ n : Nat, n < 2 ^ 32 → 1 ≤ (dec n).length ∧ (dec n).length ≤ 10) ∧
    (∀ n : Nat, 10 ≤ n → n < 2 ^ 32 → (dec n).head? ≠ some 0x30) ∧
    dec 0 = [0x30] ∧ dec 177 = [0x31, 0x37, 0x37]

/-- Rule R80: the padded length, its closed form, that it is the least multiple of 64 that holds the data and nine more
bytes, and the values at the boundary. -/
def Obligations.PaddedLength : Prop :=
  (∀ len : Nat, (len % 64 > 55 → padLen len = 64 * (len / 64 + 2)) ∧
      (len % 64 ≤ 55 → padLen len = 64 * (len / 64 + 1)) ∧
      padLen len = 64 * ((len + 9 + 63) / 64) ∧ padLen len % 64 = 0 ∧ len + 9 ≤ padLen len ∧
      ∀ p, p % 64 = 0 → len + 9 ≤ p → padLen len ≤ p) ∧
    [0, 55, 56, 63, 64, 119, 120, 200].map padLen = [64, 64, 128, 128, 128, 128, 192, 256]

/-- Rule R81: every byte of the padded message. -/
def Obligations.PaddedMessageBytes : Prop :=
  ∀ d : List Byte,
    (Machine.pad d).length = padLen d.length ∧
    (∀ a, a < d.length → (Machine.pad d)[a]? = d[a]?) ∧
    (Machine.pad d)[d.length]? = some 0x80 ∧
    (∀ a, d.length + 1 ≤ a → a < padLen d.length - 8 → (Machine.pad d)[a]? = some 0x00) ∧
    (∀ j, j ≤ 7 → (Machine.pad d)[padLen d.length - 8 + j]? = (be64 (8 * d.length))[j]?)

/-- Rule R84: the eight bytes of a 64-bit integer, most significant first, and the rule's examples. -/
def Obligations.BigEndianEightBytes : Prop :=
  (∀ n : Nat, n < 2 ^ 64 → (be64 n).length = 8 ∧
      ∀ j, j ≤ 7 → ((be64 n)[j]?).map BitVec.toNat = some (n / 2 ^ (8 * (7 - j)) % 256)) ∧
    be64 24 = [0, 0, 0, 0, 0, 0, 0, 0x18] ∧ be64 1600 = [0, 0, 0, 0, 0, 0, 0x06, 0x40]

/-- Rule R90: when a prefix is invalid; otherwise character `i` is the digit at bits `31 - 4*(i mod 8)` down to
`28 - 4*(i mod 8)` of word `i div 8`, every later digit is 0, and the precision is four times the length. -/
def Obligations.TargetEncodeDigits : Prop :=
  ∀ s : List Byte,
    (s.length > 40 ∨ (∃ c ∈ s, hexval c = none) → targetEncode s = none) ∧
    (s.length ≤ 40 → (∀ c ∈ s, hexval c ≠ none) → ∃ t : Words5, targetEncode s = some (t, 4 * s.length) ∧
      (∀ (i : Nat) (c : Byte), s[i]? = some c →
        hexval c = some ((t.get (i / 8)).extractLsb' (28 - 4 * (i % 8)) 4)) ∧
      (∀ i, s.length ≤ i → i < 40 → (t.get (i / 8)).extractLsb' (28 - 4 * (i % 8)) 4 = 0))

/-- Rule R93: the five words as one number, where each of its bits comes from, the 20 bytes of a digest in it, and the 40
characters of its hexadecimal string. -/
def Obligations.FiveWordsAsNumber : Prop :=
  ∀ x : Words5,
    (w160 x).toNat = x.w0.toNat * 2 ^ 128 + x.w1.toNat * 2 ^ 96 + x.w2.toNat * 2 ^ 64 + x.w3.toNat * 2 ^ 32 + x.w4.toNat ∧
    (∀ b, b ≤ 159 → (w160 x).getLsbD (159 - b) = (x.get (b / 32)).getLsbD (31 - b % 32)) ∧
    (∀ g : Nat → Byte, (∀ i, i ≤ 4 → x.get i = g (4 * i) ++ g (4 * i + 1) ++ g (4 * i + 2) ++ g (4 * i + 3)) →
      ∀ k, k < 20 → (w160 x).extractLsb' (152 - 8 * k) 8 = g k) ∧
    (hexString x).length = 40 ∧
    ∀ k, k < 40 → ((hexString x)[k]?).bind hexval = some ((w160 x).extractLsb' (156 - 4 * k) 4)

/-- Rule R94: the match by quotients and bit by bit, with the precisions 0 and 160. -/
def Obligations.MatchComparesTopBits : Prop :=
  ∀ d t : Words5,
    (∀ p, p ≤ 160 → (prefixMatch d t p = true ↔ (w160 d).toNat / 2 ^ (160 - p) = (w160 t).toNat / 2 ^ (160 - p))) ∧
    (∀ p, p ≤ 160 → (prefixMatch d t p = true ↔
      ∀ b, b < p → (w160 d).getLsbD (159 - b) = (w160 t).getLsbD (159 - b))) ∧
    prefixMatch d t 0 = true ∧ (prefixMatch d t 160 = true ↔ d = t)

/-- Rule R95: the word-wise form of the match, and its masked form for a Target whose ignored bits are 0. -/
def Obligations.MatchWordByWord : Prop :=
  ∀ (d t : Words5) (p : Nat), p ≤ 160 →
    (prefixMatch d t p = true ↔
      (∀ i, i < p / 32 → d.get i = t.get i) ∧
        (0 < p % 32 → (d.get (p / 32)).toNat / 2 ^ (32 - p % 32) = (t.get (p / 32)).toNat / 2 ^ (32 - p % 32))) ∧
    ((w160 t).toNat % 2 ^ (160 - p) = 0 →
      (prefixMatch d t p = true ↔
        w160 d &&& BitVec.ofNat 160 (2 ^ 160 - 2 ^ (160 - p)) = w160 t))

/-- Rule R102: a prefix matches exactly the digests whose lowercase hexadecimal string begins with it, and a nonce that CMP
records satisfied the predicate with the digest then in `DIGEST[0..4]`. -/
def Obligations.MatchIsStringPrefix : Prop :=
  (∀ (s : List Byte) (t : Words5) (p : Nat) (d : Words5), targetEncode s = some (t, p) →
      (prefixMatch d t p = true ↔ (s.map lowerHex) <+: hexString d)) ∧
    (∀ s t : State, exec .cmp s = .next t → s.rvalid = false → t.rvalid = true →
      t.result = s.nonce ∧ prefixMatch s.digest s.target s.prec.toNat = true)

/-- Rule R110: the commit-object header, its length, its only zero byte, and the rule's examples. -/
def Obligations.CommitHeaderBytes : Prop :=
  (∀ n : Word,
      commitHeader n = [0x63, 0x6F, 0x6D, 0x6D, 0x69, 0x74, 0x20] ++ dec n.toNat ++ [0x00] ∧
      (commitHeader n).length = 8 + (dec n.toNat).length ∧ 9 ≤ (commitHeader n).length ∧
      (commitHeader n).length ≤ 18 ∧
      (∀ i, (commitHeader n)[i]? = some 0x00 ↔ i + 1 = (commitHeader n).length)) ∧
    commitHeader 0 = [0x63, 0x6F, 0x6D, 0x6D, 0x69, 0x74, 0x20, 0x30, 0x00] ∧
    commitHeader 19 = [0x63, 0x6F, 0x6D, 0x6D, 0x69, 0x74, 0x20, 0x31, 0x39, 0x00] ∧
    commitHeader 4294967295 =
      [0x63, 0x6F, 0x6D, 0x6D, 0x69, 0x74, 0x20, 0x34, 0x32, 0x39, 0x34, 0x39, 0x36, 0x37, 0x32, 0x39, 0x35, 0x00]

/-! ## The commands: results, faults and encodings -/

/-- Rule R111 (HDR): the result, the Sequence fault, the encoding, and that the header always fits. -/
def Obligations.HdrWritesHeader : Prop :=
  ∀ (n : Word) (s : State), s.err = none →
    (s.padded = false → s.len = 0 →
      exec (.hdr n) s = .next
        { s with
          mb := Memory.writeList s.mb 0 (commitHeader n)
          len := BitVec.ofNat 32 (commitHeader n).length
          hlen := BitVec.ofNat 32 (commitHeader n).length
          bodyLen := n
          hdrDone := true }) ∧
    (s.padded = true ∨ s.len ≠ 0 →
      exec (.hdr n) s = .next { s with err := some .sequence, ecmd := encode (.hdr n) }) ∧
    encode (.hdr n) = (0x01 : Byte) ++ n ∧ (commitHeader n).length ≤ s.capacity

/-- Rule R82 (PUTB): the result, the two faults in their order, the encoding. -/
def Obligations.PutbAppendsByte : Prop :=
  ∀ (b : Byte) (s : State), s.err = none →
    (s.padded = false → s.len.toNat < s.capacity →
      exec (.putb b) s = .next { s with mb := Memory.writeList s.mb s.len.toNat [b], len := s.len + 1 } ∧
        (s.len + 1).toNat = s.len.toNat + 1) ∧
    (s.padded = true → exec (.putb b) s = .next { s with err := some .sequence, ecmd := encode (.putb b) }) ∧
    (s.padded = false → s.len.toNat = s.capacity →
      exec (.putb b) s = .next { s with err := some .overflow, ecmd := encode (.putb b) }) ∧
    encode (.putb b) = (0x02 : Byte) ++ (0 : BitVec 24) ++ b

/-- Rule R112 (MARK): the result, the two faults in their order, the encoding. -/
def Obligations.MarkReservesPlaceholder : Prop :=
  ∀ s : State, s.err = none →
    (s.padded = false → s.marked = false → s.len.toNat + 16 ≤ s.capacity →
      exec .mark s = .next
          { s with
            mb := Memory.writeList s.mb s.len.toNat (List.replicate 16 0x46)
            poff := s.len
            len := s.len + 16
            marked := true } ∧
        (s.len + 16).toNat = s.len.toNat + 16) ∧
    (s.padded = true ∨ s.marked = true → exec .mark s = .next { s with err := some .sequence, ecmd := encode .mark }) ∧
    (s.padded = false → s.marked = false → s.len.toNat + 16 > s.capacity →
      exec .mark s = .next { s with err := some .overflow, ecmd := encode .mark }) ∧
    encode .mark = 0x0300000000

/-- Rule R85 (PAD): the result by the rule's three stores, the three faults in their order, the encoding. -/
def Obligations.PadWritesPadding : Prop :=
  ∀ s : State, s.err = none →
    (s.padded = false → (s.hdrDone = true → (s.len.toNat : Int) - s.hlen.toNat = s.bodyLen.toNat) →
      padLen s.len.toNat ≤ s.capacity →
        exec .pad s = .next
          { s with
            mb :=
              Memory.writeList
                (Memory.writeList (Memory.writeList s.mb s.len.toNat [0x80]) (s.len.toNat + 1)
                  (List.replicate (padLen s.len.toNat - 9 - s.len.toNat) 0x00))
                (padLen s.len.toNat - 8) (be64 (8 * s.len.toNat))
            plen := BitVec.ofNat 32 (padLen s.len.toNat)
            padded := true }) ∧
    (s.padded = true → exec .pad s = .next { s with err := some .sequence, ecmd := encode .pad }) ∧
    (s.padded = false → s.hdrDone = true → (s.len.toNat : Int) - s.hlen.toNat ≠ s.bodyLen.toNat →
      exec .pad s = .next { s with err := some .lengthMismatch, ecmd := encode .pad }) ∧
    (s.padded = false → (s.hdrDone = true → (s.len.toNat : Int) - s.hlen.toNat = s.bodyLen.toNat) →
      padLen s.len.toNat > s.capacity → exec .pad s = .next { s with err := some .overflow, ecmd := encode .pad }) ∧
    encode .pad = 0x0400000000

/-- Rules R120 and R121 (SETNL, SETNH): each writes its half of the nonce and leaves the other; the encodings. -/
def Obligations.NonceHalvesWritten : Prop :=
  ∀ (v : Word) (s : State), s.err = none →
    (∃ t, exec (.setnl v) s = .next t ∧ t = { s with nonce := t.nonce } ∧ t.nonce.extractLsb' 0 32 = v ∧
      t.nonce.extractLsb' 32 32 = s.nonce.extractLsb' 32 32) ∧
    (∃ t, exec (.setnh v) s = .next t ∧ t = { s with nonce := t.nonce } ∧ t.nonce.extractLsb' 32 32 = v ∧
      t.nonce.extractLsb' 0 32 = s.nonce.extractLsb' 0 32) ∧
    encode (.setnl v) = (0x10 : Byte) ++ v ∧ encode (.setnh v) = (0x11 : Byte) ++ v

/-- Rule R122 (SPLICE): the 16 characters at the placeholder and nothing else, the Sequence fault, the encoding. The
placeholder lies in the buffer in every state that `Inv` holds in. -/
def Obligations.SpliceWritesNonce : Prop :=
  ∀ s : State, s.err = none →
    (s.marked = true → s.poff.toNat + 16 ≤ s.capacity →
      ∃ t, exec .splice s = .next t ∧ t = { s with mb := t.mb } ∧
        (∀ i, i < 16 → t.byte (s.poff.toNat + i) = some (hexU (s.nonce.extractLsb' (60 - 4 * i) 4))) ∧
        sameOutside s t s.poff.toNat 16) ∧
    (s.marked = false → exec .splice s = .next { s with err := some .sequence, ecmd := encode .splice }) ∧
    encode .splice = 0x1200000000

/-- Rule R123 (STRIP): the object window from the first `0x00` of the data, which is the announced body when HDR wrote the
header, the two faults in their order, the encoding. -/
def Obligations.StripLocatesObject : Prop :=
  ∀ s : State, s.err = none →
    (∀ z, s.padded = true → z < s.len.toNat → s.byte z = some 0 → (∀ a, a < z → ∃ b, s.byte a = some b ∧ b ≠ 0) →
      exec .strip s = .next
        { s with
          objOff := BitVec.ofNat 32 (z + 1)
          objLen := BitVec.ofNat 32 (s.len.toNat - (z + 1))
          stripped := true }) ∧
    (Inv s → s.padded = true → s.hdrDone = true →
      exec .strip s = .next { s with objOff := s.hlen, objLen := s.bodyLen, stripped := true }) ∧
    (s.padded = false → exec .strip s = .next { s with err := some .sequence, ecmd := encode .strip }) ∧
    (s.padded = true → noTerminatorCondition s →
      exec .strip s = .next { s with err := some .noTerminator, ecmd := encode .strip }) ∧
    encode .strip = 0x1300000000

/-- Rule R91 (PUTC): the digit's four bits of the Target and the precision, the faults in their order, the encoding. -/
def Obligations.PutcEntersDigit : Prop :=
  ∀ (c : Byte) (s : State), s.err = none →
    (∀ d, s.tlock = false → s.prec.toNat < 160 → hexval c = some d →
      ∃ t, exec (.putc c) s = .next t ∧ t = { s with target := t.target, prec := t.prec } ∧
        t.prec.toNat = s.prec.toNat + 4 ∧
        (t.target.get (s.prec.toNat / 4 / 8)).extractLsb' (28 - 4 * (s.prec.toNat / 4 % 8)) 4 = d ∧
        (∀ b, b < 32 → ¬ (28 - 4 * (s.prec.toNat / 4 % 8) ≤ b ∧ b < 32 - 4 * (s.prec.toNat / 4 % 8)) →
          (t.target.get (s.prec.toNat / 4 / 8)).getLsbD b = (s.target.get (s.prec.toNat / 4 / 8)).getLsbD b) ∧
        (∀ j, j ≤ 4 → j ≠ s.prec.toNat / 4 / 8 → t.target.get j = s.target.get j)) ∧
    (s.tlock = true → exec (.putc c) s = .next { s with err := some .sequence, ecmd := encode (.putc c) }) ∧
    (s.tlock = false → s.prec = 160 ∨ hexval c = none →
      exec (.putc c) s = .next { s with err := some .invalidPrefix, ecmd := encode (.putc c) }) ∧
    encode (.putc c) = (0x20 : Byte) ++ (0 : BitVec 24) ++ c

/-- Rule R101 (CMP): `MATCH`, `TLOCK`, and the result slot on the first match; the encoding. -/
def Obligations.CmpRecordsMatch : Prop :=
  ∀ s : State, s.err = none → s.prec.toNat ≤ 160 →
    (prefixMatch s.digest s.target s.prec.toNat = true → s.rvalid = false →
      exec .cmp s = .next { s with matched := true, tlock := true, rvalid := true, result := s.nonce }) ∧
    (prefixMatch s.digest s.target s.prec.toNat = true → s.rvalid = true →
      exec .cmp s = .next { s with matched := true, tlock := true }) ∧
    (prefixMatch s.digest s.target s.prec.toNat = false →
      exec .cmp s = .next { s with matched := false, tlock := true }) ∧
    encode .cmp = 0x2100000000

/-- Rules R96 to R100 (SETD0 to SETD4): each writes its word of the digest and nothing else; the encodings. -/
def Obligations.DigestWordsWritten : Prop :=
  ∀ (v : Word) (s : State), s.err = none →
    exec (.setd0 v) s = .next { s with digest := { s.digest with w0 := v } } ∧
    exec (.setd1 v) s = .next { s with digest := { s.digest with w1 := v } } ∧
    exec (.setd2 v) s = .next { s with digest := { s.digest with w2 := v } } ∧
    exec (.setd3 v) s = .next { s with digest := { s.digest with w3 := v } } ∧
    exec (.setd4 v) s = .next { s with digest := { s.digest with w4 := v } } ∧
    encode (.setd0 v) = (0x28 : Byte) ++ v ∧ encode (.setd1 v) = (0x29 : Byte) ++ v ∧
    encode (.setd2 v) = (0x2A : Byte) ++ v ∧ encode (.setd3 v) = (0x2B : Byte) ++ v ∧
    encode (.setd4 v) = (0x2C : Byte) ++ v

/-- Rule R86: the three properties of the padded message and the bounds on its length, right after PAD and after a SPLICE
that follows it. -/
def Obligations.PadLaws : Prop :=
  ∀ s : State, s.err = none → s.padded = false →
    (s.hdrDone = true → (s.len.toNat : Int) - s.hlen.toNat = s.bodyLen.toNat) → padLen s.len.toNat ≤ s.capacity →
    ∃ t, exec .pad s = .next t ∧ t.err = none ∧
      ∀ u, (u = t ∨ (s.marked = true ∧ s.poff.toNat + 16 ≤ s.len.toNat ∧ exec .splice t = .next u)) →
        u.plen.toNat = padLen s.len.toNat ∧
        Memory.readList u.mb (u.plen.toNat - 8) 8 = some (be64 (8 * s.len.toNat)) ∧
        u.byte s.len.toNat = some 0x80 ∧ u.plen.toNat % 64 = 0 ∧
        9 ≤ u.plen.toNat - u.len.toNat ∧ u.plen.toNat - u.len.toNat ≤ 72

/-- 40_padding.md section 4, Result: after PAD the buffer holds `Pad(d)` for the data `d` it held before, and the data
length is unchanged. -/
def Obligations.PadLeavesPaddedMessage : Prop :=
  ∀ (s : State) (d : List Byte), s.err = none → s.padded = false →
    (s.hdrDone = true → (s.len.toNat : Int) - s.hlen.toNat = s.bodyLen.toNat) → padLen s.len.toNat ≤ s.capacity →
    Memory.readList s.mb 0 s.len.toNat = some d →
    ∃ t, exec .pad s = .next t ∧ Memory.readList t.mb 0 t.plen.toNat = some (Machine.pad d) ∧ t.len = s.len ∧
      t.vext = t.plen.toNat

/-! ## Frames (10_state.md section 8) -/

/-- SETNL, SETNH and SETD0 to SETD4 change their half of the nonce or their word of the digest, and no byte of `MB`. -/
def Obligations.FrameNonceAndDigest : Prop :=
  ∀ (v : Word) (s t : State),
    (exec (.setnl v) s = .next t → t = { s with nonce := t.nonce } ∧
      t.nonce.extractLsb' 32 32 = s.nonce.extractLsb' 32 32 ∧ sameBuffer s t) ∧
    (exec (.setnh v) s = .next t → t = { s with nonce := t.nonce } ∧
      t.nonce.extractLsb' 0 32 = s.nonce.extractLsb' 0 32 ∧ sameBuffer s t) ∧
    (exec (.setd0 v) s = .next t → t = { s with digest := { s.digest with w0 := t.digest.w0 } } ∧ sameBuffer s t) ∧
    (exec (.setd1 v) s = .next t → t = { s with digest := { s.digest with w1 := t.digest.w1 } } ∧ sameBuffer s t) ∧
    (exec (.setd2 v) s = .next t → t = { s with digest := { s.digest with w2 := t.digest.w2 } } ∧ sameBuffer s t) ∧
    (exec (.setd3 v) s = .next t → t = { s with digest := { s.digest with w3 := t.digest.w3 } } ∧ sameBuffer s t) ∧
    (exec (.setd4 v) s = .next t → t = { s with digest := { s.digest with w4 := t.digest.w4 } } ∧ sameBuffer s t)

/-- PUTC, CMP and STRIP change the registers rule R29 lists for them (PUTC and STRIP, or `ERR` and `ECMD` alone on a
fault; CMP raises none), and no byte of `MB`. -/
def Obligations.FrameTargetMatchAndStrip : Prop :=
  ∀ (c : Byte) (s t : State),
    (exec (.putc c) s = .next t → sameBuffer s t ∧
      ((t = { s with target := t.target, prec := t.prec } ∧
          ∀ j, j ≤ 4 → j ≠ s.prec.toNat / 4 / 8 → t.target.get j = s.target.get j) ∨
        onlyRaised (.putc c) s t)) ∧
    (exec .cmp s = .next t → sameBuffer s t ∧
      t = { s with matched := t.matched, tlock := t.tlock, rvalid := t.rvalid, result := t.result }) ∧
    (exec .strip s = .next t → sameBuffer s t ∧
      (t = { s with objOff := t.objOff, objLen := t.objLen, stripped := t.stripped } ∨ onlyRaised .strip s t))

/-- HDR, PUTB and MARK store at the addresses computed here and change the registers rule R29 lists for them, or `ERR` and
`ECMD` alone on a fault. -/
def Obligations.FrameAppendingCommands : Prop :=
  ∀ (n : Word) (b : Byte) (s t : State),
    (exec (.hdr n) s = .next t → sameOutside s t 0 (commitHeader n).length ∧
      (t = { s with mb := t.mb, len := t.len, hlen := t.hlen, bodyLen := t.bodyLen, hdrDone := t.hdrDone } ∨
        (sameBuffer s t ∧ onlyRaised (.hdr n) s t))) ∧
    (exec (.putb b) s = .next t → sameOutside s t s.len.toNat 1 ∧
      (t = { s with mb := t.mb, len := t.len } ∨ (sameBuffer s t ∧ onlyRaised (.putb b) s t))) ∧
    (exec .mark s = .next t → sameOutside s t s.len.toNat 16 ∧
      (t = { s with mb := t.mb, poff := t.poff, len := t.len, marked := t.marked } ∨
        (sameBuffer s t ∧ onlyRaised .mark s t)))

/-- PAD and SPLICE store at the addresses computed here and change the registers rule R29 lists for them, or `ERR` and
`ECMD` alone on a fault. -/
def Obligations.FramePadAndSplice : Prop :=
  ∀ s t : State,
    (exec .pad s = .next t → sameOutside s t s.len.toNat (padLen s.len.toNat - s.len.toNat) ∧
      (t = { s with mb := t.mb, plen := t.plen, padded := t.padded } ∨ (sameBuffer s t ∧ onlyRaised .pad s t))) ∧
    (exec .splice s = .next t → sameOutside s t s.poff.toNat 16 ∧
      (t = { s with mb := t.mb } ∨ (sameBuffer s t ∧ onlyRaised .splice s t)))

/-- 10_state.md section 8, the column "Reads": only STRIP reads `MB`. Run from the same registers over another buffer `m`,
any other command gives the same registers, and at every address it either leaves the same byte in both runs (what it
stored does not come from the old buffer) or leaves in both the byte that stood there. -/
def Obligations.OnlyStripReadsBuffer : Prop :=
  ∀ (i : Instr) (s t : State) (m : Memory), i ≠ .strip → exec i s = .next t →
    ∃ m', exec i { s with mb := m } = .next { t with mb := m' } ∧
      ∀ a, Memory.read m' a = Memory.read t.mb a ∨
        (Memory.read m' a = Memory.read m a ∧ Memory.read t.mb a = Memory.read s.mb a)

/-! ## Faults -/

/-- Rule R131: an executed command raises Sequence exactly under the condition the table gives for it. -/
def Obligations.SequenceConditions : Prop :=
  ∀ (i : Instr) (s : State), s.err = none →
    (exec i s = .next { s with err := some .sequence, ecmd := encode i } ↔ sequenceCondition i s)

/-- Rules R130 and R134: the codes; the first cause that applies, in the order of rule R134, is the one raised, with its
code and the command word recorded; with no cause that applies nothing is raised; while halted nothing is raised. -/
def Obligations.FirstCauseIsRaised : Prop :=
  ([Cause.illegalCommand, .sequence, .invalidPrefix, .overflow, .lengthMismatch, .noTerminator].map Cause.code =
      [1, 2, 3, 4, 5, 6]) ∧
    (∀ s : State, s.err = none ↔ s.errCode = 0) ∧
    (∀ (w : CmdWord) (s : State), s.err ≠ none → execWord w s = .next s) ∧
    (∀ (w : CmdWord) (s : State) (x : Cause), s.err = none → firstCause x w s →
      ∃ t, execWord w s = .next t ∧ t = { s with err := some x, ecmd := w } ∧ t.errCode = x.code) ∧
    (∀ (w : CmdWord) (s t : State), s.err = none → (∀ x, ¬ causeApplies x w s) → execWord w s = .next t →
      t.err = none)

/-- Rule R132: a word that raises a fault is one executed with `ERR = 0`; it writes `ERR` and `ECMD` and nothing else, and
the `FAULT` output becomes 1. -/
def Obligations.FaultsArePrecise : Prop :=
  ∀ (w : CmdWord) (s t : State), execWord w s = .next t → t.err ≠ s.err →
    s.err = none ∧ t = { s with err := t.err, ecmd := w } ∧ (t.errCode.toNat = 1 ∨ t.errCode.toNat = 2 ∨
      t.errCode.toNat = 3 ∨ t.errCode.toNat = 4 ∨ t.errCode.toNat = 5 ∨ t.errCode.toNat = 6) ∧ t.faultOut = true

/-- Rules R133 and R135: while halted every word, legal or illegal, is discarded and so is every command, the read ports
answer as before, and no fault follows the first; reset clears the fault and discards everything built so far. -/
def Obligations.HaltedUntilReset : Prop :=
  (∀ (w : CmdWord) (s : State), s.err ≠ none → ∃ t, execWord w s = .next t ∧ t = s ∧ t.err = s.err ∧ t.ecmd = s.ecmd ∧
      (∀ n, t.regRead n = s.regRead n) ∧ ∀ a, t.bufRead a = s.bufRead a) ∧
    (∀ (i : Instr) (s : State), s.err ≠ none → exec i s = .next s) ∧
    (∀ s : State, (resetEvent s).err = none ∧ resetEvent s = { State.reset with cap := s.cap, port := s.port })

/-- The model's own stops (log entries 3, 5 and 6), for states outside the invariants of rule R32, where the spec gives no
effect: a store beyond `MSG_CAP`, a byte with no value under the scan of STRIP, a precision above 160. With the completion
statements these are all the ways a command can end. -/
def Obligations.StopsOutsideInvariants : Prop :=
  ∀ s : State, s.err = none →
    (∀ b, s.padded = false → s.len.toNat > s.capacity →
      exec (.putb b) s = .fault (.outsideBuffer s.len.toNat)) ∧
    (s.marked = true → s.poff.toNat + 16 > s.capacity → exec .splice s = .fault (.outsideBuffer s.poff.toNat)) ∧
    (∀ z, s.padded = true → z < s.len.toNat → s.byte z = none → (∀ a, a < z → ∃ b, s.byte a = some b ∧ b ≠ 0) →
      exec .strip s = .fault (.noValue z)) ∧
    (s.prec.toNat > 160 → exec .cmp s = .refused (.precisionOutOfRange s.prec.toNat)) ∧
    (∀ c, s.tlock = false → s.prec.toNat > 160 → hexval c ≠ none →
      exec (.putc c) s = .refused (.precisionOutOfRange s.prec.toNat))

/-! ## Reset -/

/-- Rule R33: every register is 0 after reset, `STATUS`, `VEXT` and `FAULT` are 0, and no byte of `MB` has a value. -/
def Obligations.ResetClearsRegisters : Prop :=
  State.reset.len = 0 ∧ State.reset.hlen = 0 ∧ State.reset.bodyLen = 0 ∧ State.reset.poff = 0 ∧ State.reset.plen = 0 ∧
    State.reset.objOff = 0 ∧ State.reset.objLen = 0 ∧ State.reset.nonce = 0 ∧ State.reset.target = ⟨0, 0, 0, 0, 0⟩ ∧
    State.reset.prec = 0 ∧ State.reset.digest = ⟨0, 0, 0, 0, 0⟩ ∧ State.reset.result = 0 ∧ State.reset.errCode = 0 ∧
    State.reset.ecmd = 0 ∧ State.reset.hdrDone = false ∧ State.reset.marked = false ∧ State.reset.padded = false ∧
    State.reset.stripped = false ∧ State.reset.tlock = false ∧ State.reset.matched = false ∧
    State.reset.rvalid = false ∧ State.reset.status = 0 ∧ State.reset.vext = 0 ∧ State.reset.faultOut = false ∧
    (∀ a, State.reset.bufRead a = none) ∧ ∀ x, State.reset.byte x = none

/-- Rule R160: a reset event, whatever state it meets, also a halted one, leaves every register at its value of rule R33
and no byte of `MB` with a value; the build's capacity and what the host presents next are no registers and stay. No command
word clears what the rule says only reset clears. -/
def Obligations.ResetEventIsTotal : Prop :=
  (∀ s : State, resetEvent s = { State.reset with cap := s.cap, port := s.port } ∧ (resetEvent s).vext = 0 ∧
      ∀ a, (resetEvent s).byte a = none) ∧
    ∀ (w : CmdWord) (s t : State), execWord w s = .next t →
      (s.err ≠ none → t.err = s.err ∧ t.ecmd = s.ecmd) ∧ (s.padded = true → t.padded = true) ∧
        (s.marked = true → t.marked = true) ∧ (s.hdrDone = true → t.hdrDone = true) ∧
        (s.stripped = true → t.stripped = true) ∧ (s.tlock = true → t.tlock = true) ∧
        (s.rvalid = true → t.rvalid = true ∧ t.result = s.result)

/-! ## Read ports -/

/-- Rules R25 and R28: the fields of `STATUS`, and the `FAULT` line. -/
def Obligations.StatusFields : Prop :=
  ∀ s : State,
    s.status.extractLsb' 0 4 = s.errCode ∧ s.status.getLsbD 4 = s.hdrDone ∧ s.status.getLsbD 5 = s.marked ∧
    s.status.getLsbD 6 = s.padded ∧ s.status.getLsbD 7 = s.stripped ∧ s.status.getLsbD 8 = s.tlock ∧
    s.status.getLsbD 9 = s.matched ∧ s.status.getLsbD 10 = s.rvalid ∧ s.status.extractLsb' 11 21 = 0 ∧
    (s.faultOut = true ↔ s.errCode ≠ 0)

/-- Rule R26: what each register number reads. -/
def Obligations.RegReadMap : Prop :=
  ∀ s : State,
    [0, 1, 2, 3, 4, 5, 6, 7, 8, 9, 10, 11, 12].map s.regRead =
      [s.status, s.len, s.hlen, s.bodyLen, s.poff, s.plen, s.objOff, s.objLen, s.nonce.extractLsb' 0 32,
        s.nonce.extractLsb' 32 32, s.prec.setWidth 32, s.target.w0, s.target.w1] ∧
    [13, 14, 15, 16, 17, 18, 19, 20, 21, 22, 23, 24].map s.regRead =
      [s.target.w2, s.target.w3, s.target.w4, s.digest.w0, s.digest.w1, s.digest.w2, s.digest.w3, s.digest.w4,
        s.result.extractLsb' 0 32, s.result.extractLsb' 32 32, s.ecmd.extractLsb' 0 32,
        (s.ecmd.extractLsb' 32 8).setWidth 32] ∧
    ∀ n : BitVec 8, 25 ≤ n.toNat → s.regRead n = 0

/-- Rules R17 and R27: the valid extent, and that BufRead answers the byte below it and no value at or beyond it. -/
def Obligations.BufReadWithinExtent : Prop :=
  ∀ s : State,
    (s.padded = true → s.vext = s.plen.toNat) ∧ (s.padded = false → s.vext = s.len.toNat) ∧
    (Inv s → s.len.toNat ≤ s.vext ∧ s.vext ≤ s.capacity) ∧
    (∀ a : Word, a.toNat < s.vext → s.bufRead a = s.byte a.toNat) ∧
    (Inv s → ∀ a : Word, a.toNat < s.vext → ∃ b, s.bufRead a = some b) ∧
    (∀ a : Word, s.vext ≤ a.toNat → s.bufRead a = none)

/-- 20_memory.md section 6: after PAD the message is `PLEN div 64` blocks, block `k` the 64 bytes from address `64k` on in
increasing order; before PAD there is none. -/
def Obligations.MessageBlocksCoverMessage : Prop :=
  ∀ s : State, Inv s →
    (s.padded = true → s.messageBlocks * 64 = s.plen.toNat ∧
      ∀ k, k < s.messageBlocks → ∃ bs, s.messageBlock k = some bs ∧ bs.length = 64 ∧
        ∀ i, i < 64 → s.byte (64 * k + i) = bs[i]?) ∧
    (s.padded = false → ∀ k, s.messageBlock k = none)

/-! ## Invariants and whole-machine rules -/

/-- 10_state.md section 10: the invariants hold after reset, for every capacity. -/
def Obligations.InvariantsHoldAfterReset : Prop := Inv State.reset ∧ ∀ c : Capacity, Inv (resetFor c)

/-- Rule R32: every command word, whether it completes, faults or is discarded, keeps the invariants; a reset establishes
them, whatever state it meets; and so every step of the model keeps them. -/
def Obligations.EveryStepKeepsInvariants : Prop :=
  (∀ (w : CmdWord) (s t : State), Inv s → execWord w s = .next t → Inv t) ∧ (∀ s : State, Inv (resetEvent s)) ∧
    ∀ s t : State, Inv s → step s = .next t → Inv t

/-- 70_reset_and_hazards.md section 6: where the invariants hold, every event has a next state: no step of the model faults
or refuses. -/
def Obligations.EveryEventHasNextState : Prop := ∀ s : State, Inv s → ∃ t, step s = .next t

/-- 00_scope.md section 4: no step changes the build's capacity. -/
def Obligations.CapacityIsConstant : Prop := ∀ s t : State, step s = .next t → t.cap = s.cap

/-- 70_reset_and_hazards.md section 3: after PAD no command word changes `PADDED`, `MARKED`, `LEN`, `PLEN`, `POFF`, `HLEN`
or `BODYLEN`; of the buffer it changes only the 16 bytes at `POFF` where a placeholder was reserved (`MARKED = 1`), and
nothing where none was (`POFF` then means nothing, 10_state.md section 3). -/
def Obligations.DataFrozenAfterPad : Prop :=
  ∀ (w : CmdWord) (s t : State), s.padded = true → execWord w s = .next t →
    t.padded = true ∧ t.marked = s.marked ∧ t.len = s.len ∧ t.plen = s.plen ∧ t.poff = s.poff ∧ t.hlen = s.hlen ∧
      t.bodyLen = s.bodyLen ∧ (s.marked = true → sameOutside s t s.poff.toNat 16) ∧ (s.marked = false → sameBuffer s t)

/-- 10_state.md section 5: once a CMP has executed no command word changes the Target, the precision or the lock. -/
def Obligations.TargetFrozenAfterCmp : Prop :=
  ∀ (w : CmdWord) (s t : State), execWord w s = .next t →
    (s.tlock = true → t.tlock = true ∧ t.target = s.target ∧ t.prec = s.prec) ∧
    (s.err = none → decode w = .command .cmp → t.tlock = true) ∧
    (s.tlock = false → t.tlock = true → decode w = .command .cmp)

/-- Rule R23: the first CMP that matches while the slot is empty fills it with the nonce, no later command changes it, it
reads 0 while it is empty, and it is empty after reset. -/
def Obligations.ResultSlotWrittenOnce : Prop :=
  (State.reset.rvalid = false ∧ State.reset.result = 0) ∧ ∀ (w : CmdWord) (s t : State), execWord w s = .next t →
    (s.rvalid = true → t.rvalid = true ∧ t.result = s.result) ∧
    (s.rvalid = false → t.rvalid = true →
      decode w = .command .cmp ∧ prefixMatch s.digest s.target s.prec.toNat = true ∧ t.result = s.nonce) ∧
    (s.err = none → s.rvalid = false → decode w = .command .cmp →
      prefixMatch s.digest s.target s.prec.toNat = true → t.rvalid = true ∧ t.result = s.nonce) ∧
    (Inv s → s.rvalid = false → s.result = 0)

/-! ## Sequences of commands -/

/-- 41_target_match.md section 2: entering a prefix character by character from an empty Target gives its `TargetEncode`;
an invalid prefix raises InvalidPrefix at the first character that is not hexadecimal or is the 41st, with the Target of
the characters before it, and the rest is discarded. -/
def Obligations.PrefixEntryAgreesWithEncode : Prop :=
  ∀ (cs : List Byte) (s : State), s.err = none → s.tlock = false → s.prec = 0 → s.target = ⟨0, 0, 0, 0, 0⟩ →
    (∀ t p, targetEncode cs = some (t, p) →
      execAll (prefixAll cs) s = .next { s with target := t, prec := BitVec.ofNat 8 p }) ∧
    (targetEncode cs = none →
      ∃ front c back t p, cs = front ++ c :: back ∧ targetEncode front = some (t, p) ∧
        (hexval c = none ∨ front.length = 40) ∧
        execAll (prefixAll cs) s = .next
          { s with target := t, prec := BitVec.ofNat 8 p, err := some .invalidPrefix, ecmd := encode (.putc c) })

/-- 41_target_match.md section 2: other commands than CMP may stand between the characters of a prefix. As long as nothing
faulted the Target is that of the characters entered; a PUTC faults only if their prefix is invalid, and it raises
InvalidPrefix. -/
def Obligations.PrefixEntryMayBeInterleaved : Prop :=
  ∀ (is : List Instr) (s t : State), s.err = none → s.tlock = false → s.prec = 0 → s.target = ⟨0, 0, 0, 0, 0⟩ →
    .cmp ∉ is → execAll is s = .next t →
    (t.err = none → targetEncode (charactersOf is) = some (t.target, t.prec.toNat)) ∧
    (∀ c, t.err ≠ none → t.ecmd = encode (.putc c) →
      t.err = some .invalidPrefix ∧ targetEncode (charactersOf is) = none)

/-- Rule R113: HDR, the bytes before the placeholder, MARK, the bytes behind it, PAD, from reset, with room for the data:
the framed message; padded when the announced length is right and the padded message fits; LengthMismatch with nothing
padded when it is wrong; Overflow (rule R85) when it is right and the padded message does not fit. -/
def Obligations.FramingBuildsMessage : Prop :=
  ∀ (c : Capacity) (n : Word) (x y : List Byte),
    (commitHeader n).length + (x.length + 16 + y.length) ≤ c.bytes →
    ∃ t, execAll ([.hdr n] ++ putAll x ++ [.mark] ++ putAll y ++ [.pad]) (resetFor c) = .next t ∧
      Memory.readList t.mb 0 t.len.toNat = some (commitHeader n ++ x ++ List.replicate 16 0x46 ++ y) ∧
      t.poff.toNat = (commitHeader n).length + x.length ∧
      t.len.toNat = (commitHeader n).length + (x.length + 16 + y.length) ∧
      (n.toNat = x.length + 16 + y.length → padLen t.len.toNat ≤ c.bytes → t.err = none ∧ t.padded = true ∧
        t.len.toNat = (commitHeader n).length + n.toNat ∧
        Memory.readList t.mb 0 t.plen.toNat =
          some (Machine.pad (commitHeader n ++ x ++ List.replicate 16 0x46 ++ y))) ∧
      (n.toNat ≠ x.length + 16 + y.length →
        t.err = some .lengthMismatch ∧ t.ecmd = encode .pad ∧ t.padded = false) ∧
      (n.toNat = x.length + 16 + y.length → padLen t.len.toNat > c.bytes →
        t.err = some .overflow ∧ t.ecmd = encode .pad ∧ t.padded = false)

/-- Rule R124: SETNH, SETNL, SPLICE, STRIP on a framed and padded message leave the object window equal to the body with
the nonce at its offset, behind the header. -/
def Obligations.ResultApplierYieldsObject : Prop :=
  ∀ (s : State) (v : Nonce) (body : List Byte), Inv s → s.err = none → s.marked = true → s.padded = true →
    s.hdrDone = true → Memory.readList s.mb s.hlen.toNat s.bodyLen.toNat = some body →
    ∃ t, execAll [.setnh (v.extractLsb' 32 32), .setnl (v.extractLsb' 0 32), .splice, .strip] s = .next t ∧
      t.err = none ∧ t.objOff = s.hlen ∧ t.objLen = s.bodyLen ∧ t.nonce = v ∧
      ∃ obj, t.objectBytes = some obj ∧ obj.length = s.bodyLen.toNat ∧
        (∀ i, i < 16 → obj[s.poff.toNat - s.hlen.toNat + i]? = (hex16 v)[i]?) ∧
        (∀ k, ¬ (s.poff.toNat - s.hlen.toNat ≤ k ∧ k < s.poff.toNat - s.hlen.toNat + 16) → obj[k]? = body[k]?) ∧
        Memory.readList t.mb 0 t.len.toNat = some (commitHeader s.bodyLen ++ obj)
end

