-- ==== Sys2Proof/Laws/Memory.lean ====
section
/-! SUPPORT. The laws of the message buffer: a read after a write, the canonical form, and sequences of bytes. -/

namespace Sys2Proof.Machine

open Sys2Proof

/-! ## One byte -/

theorem Memory.read_write (m : Memory) (a x : Nat) (b : Byte) :
    Memory.read (Memory.write m a b) x = if x = a then some b else Memory.read m x := by
  induction m with
  | nil => simp [Memory.write, Memory.read]
  | cons c rest ih =>
    obtain ⟨y, v⟩ := c
    simp only [Memory.write]
    split
    · simp [Memory.read]
    · split
      · subst_vars
        simp only [Memory.read]
        split <;> simp_all
      · simp only [Memory.read, ih]
        split
        · have : x ≠ a := by omega
          simp [this]
        · rfl

theorem Memory.read_write_same (m : Memory) (a : Nat) (b : Byte) : Memory.read (Memory.write m a b) a = some b := by
  simp [Memory.read_write]

theorem Memory.read_write_other (m : Memory) {a x : Nat} (b : Byte) (h : x ≠ a) :
    Memory.read (Memory.write m a b) x = Memory.read m x := by
  simp [Memory.read_write, h]

/-- Writing keeps the addresses rising from a bound that the new address respects. -/
theorem Memory.wfFrom_write {lo : Nat} {m : Memory} (h : Memory.wfFrom lo m = true) {a : Nat} (ha : lo ≤ a) (b : Byte) :
    Memory.wfFrom lo (Memory.write m a b) = true := by
  induction m generalizing lo with
  | nil => simpa [Memory.write, Memory.wfFrom] using ha
  | cons c rest ih =>
    obtain ⟨y, v⟩ := c
    simp only [Memory.wfFrom, Bool.and_eq_true, decide_eq_true_eq] at h
    simp only [Memory.write]
    split
    · simp only [Memory.wfFrom, Bool.and_eq_true, decide_eq_true_eq]
      exact ⟨ha, by omega, h.2⟩
    · split
      · subst_vars
        simp only [Memory.wfFrom, Bool.and_eq_true, decide_eq_true_eq]
        exact h
      · simp only [Memory.wfFrom, Bool.and_eq_true, decide_eq_true_eq]
        exact ⟨h.1, ih h.2 (by omega)⟩

theorem Memory.wf_write {m : Memory} (h : Memory.wf m = true) (a : Nat) (b : Byte) :
    Memory.wf (Memory.write m a b) = true :=
  Memory.wfFrom_write h (Nat.zero_le a) b

theorem Memory.mem_write {m : Memory} {a : Nat} {b : Byte} {c : Host.Cell} (h : c ∈ Memory.write m a b) :
    c.1 = a ∨ c ∈ m := by
  induction m with
  | nil => simp_all [Memory.write]
  | cons d rest ih =>
    obtain ⟨y, v⟩ := d
    simp only [Memory.write] at h
    split at h
    · rcases List.mem_cons.1 h with rfl | h
      · exact .inl rfl
      · exact .inr h
    · split at h
      · rcases List.mem_cons.1 h with rfl | h
        · exact .inl rfl
        · exact .inr (List.mem_cons_of_mem _ h)
      · rcases List.mem_cons.1 h with rfl | h
        · exact .inr List.mem_cons_self
        · exact (ih h).imp_right (List.mem_cons_of_mem _)

/-! ## Sequences of bytes -/

/-- What a read sees after a sequence was written: the sequence inside it, the old byte outside. -/
theorem Memory.read_writeList (m : Memory) (a : Nat) (bs : List Byte) (x : Nat) :
    Memory.read (Memory.writeList m a bs) x =
      if a ≤ x ∧ x < a + bs.length then bs[x - a]? else Memory.read m x := by
  induction bs generalizing m a with
  | nil =>
    simp [Memory.writeList]
  | cons b bs ih =>
    simp only [Memory.writeList, ih, Memory.read_write, List.length_cons]
    by_cases h1 : x = a
    · subst h1
      simp
    · by_cases h2 : a + 1 ≤ x ∧ x < a + 1 + bs.length
      · have h3 : a ≤ x ∧ x < a + (bs.length + 1) := by omega
        have h4 : x - a = (x - (a + 1)) + 1 := by omega
        simp only [h2, h3, h4]
        simp
      · have h3 : ¬ (a ≤ x ∧ x < a + (bs.length + 1)) := by omega
        rw [if_neg h2, if_neg h3, if_neg h1]

theorem Memory.wf_writeList {m : Memory} (h : Memory.wf m = true) (a : Nat) (bs : List Byte) :
    Memory.wf (Memory.writeList m a bs) = true := by
  induction bs generalizing m a with
  | nil => exact h
  | cons b bs ih => exact ih (Memory.wf_write h a b) (a + 1)

theorem Memory.mem_writeList {m : Memory} {a : Nat} {bs : List Byte} {c : Host.Cell}
    (h : c ∈ Memory.writeList m a bs) : (a ≤ c.1 ∧ c.1 < a + bs.length) ∨ c ∈ m := by
  induction bs generalizing m a with
  | nil => exact .inr h
  | cons b bs ih =>
    simp only [List.length_cons]
    rcases ih h with h1 | h1
    · exact .inl (by omega)
    · rcases Memory.mem_write h1 with h2 | h2
      · exact .inl (by omega)
      · exact .inr h2

/-- Two sequences written one behind the other are one sequence. -/
theorem Memory.writeList_append (m : Memory) (a : Nat) (bs cs : List Byte) :
    Memory.writeList m a (bs ++ cs) = Memory.writeList (Memory.writeList m a bs) (a + bs.length) cs := by
  induction bs generalizing m a with
  | nil => rfl
  | cons b bs ih =>
    simp only [List.cons_append, Memory.writeList, ih, List.length_cons]
    congr 1
    omega

/-- A sequence read back: its length is what was asked for and each byte is the buffer's. -/
theorem Memory.readList_eq_some {m : Memory} {a n : Nat} {bs : List Byte} :
    Memory.readList m a n = some bs ↔ bs.length = n ∧ ∀ i, i < n → Memory.read m (a + i) = bs[i]? := by
  induction n generalizing bs with
  | zero =>
    simp only [Memory.readList, Option.some.injEq, Nat.not_lt_zero, false_implies, implies_true, and_true]
    exact ⟨fun h => h ▸ rfl, fun h => (List.length_eq_zero_iff.1 h).symm⟩
  | succ n ih =>
    simp only [Memory.readList]
    constructor
    · intro h
      split at h
      case h_2 => cases h
      case h_1 cs b h1 h2 =>
        obtain ⟨hl, hr⟩ := ih.1 h1
        cases h
        refine ⟨by simp [hl], fun i hi => ?_⟩
        by_cases hin : i < n
        · rw [hr i hin, List.getElem?_append_left (by omega)]
        · have : i = n := by omega
          subst this
          rw [h2, List.getElem?_append_right (by omega)]
          simp [hl]
    · rintro ⟨hl, hr⟩
      have hd : bs.take n ++ [bs[n]] = bs := by
        rw [List.take_append_getElem]
        exact List.take_of_length_le (by omega)
      have h1 : Memory.readList m a n = some (bs.take n) :=
        ih.2 ⟨by simp [hl], fun i hi => by rw [hr i (by omega), List.getElem?_take_of_lt hi]⟩
      have h2 : Memory.read m (a + n) = some bs[n] := by
        rw [hr n (by omega)]
        exact List.getElem?_eq_getElem (by omega)
      rw [h1, h2]
      simp [hd]

/-- A written sequence reads back. -/
theorem Memory.readList_writeList (m : Memory) (a : Nat) (bs : List Byte) :
    Memory.readList (Memory.writeList m a bs) a bs.length = some bs := by
  refine Memory.readList_eq_some.2 ⟨rfl, fun i hi => ?_⟩
  have : a ≤ a + i ∧ a + i < a + bs.length := by omega
  rw [Memory.read_writeList, if_pos this]
  congr 1
  omega

/-- A sequence depends only on the bytes it covers. -/
theorem Memory.readList_congr {m m' : Memory} {a n : Nat}
    (h : ∀ x, a ≤ x → x < a + n → Memory.read m' x = Memory.read m x) :
    Memory.readList m' a n = Memory.readList m a n := by
  induction n with
  | zero => rfl
  | succ n ih =>
    simp only [Memory.readList]
    rw [ih fun x h1 h2 => h x h1 (by omega), h (a + n) (by omega) (by omega)]

/-- Adjacent sequences read as one. -/
theorem Memory.readList_append {m : Memory} {a n k : Nat} {bs cs : List Byte}
    (h1 : Memory.readList m a n = some bs) (h2 : Memory.readList m (a + n) k = some cs) :
    Memory.readList m a (n + k) = some (bs ++ cs) := by
  obtain ⟨hl1, hr1⟩ := Memory.readList_eq_some.1 h1
  obtain ⟨hl2, hr2⟩ := Memory.readList_eq_some.1 h2
  refine Memory.readList_eq_some.2 ⟨by simp [hl1, hl2], fun i hi => ?_⟩
  by_cases hin : i < n
  · rw [hr1 i hin, List.getElem?_append_left (by omega)]
  · rw [List.getElem?_append_right (by omega), hl1, ← hr2 (i - n) (by omega)]
    congr 1
    omega

/-- A sequence of bytes that all hold a value reads as some list. -/
theorem Memory.readList_isSome {m : Memory} {a n : Nat} (h : ∀ i, i < n → (Memory.read m (a + i)).isSome = true) :
    ∃ bs, Memory.readList m a n = some bs := by
  induction n with
  | zero => exact ⟨[], rfl⟩
  | succ n ih =>
    obtain ⟨bs, hbs⟩ := ih fun i hi => h i (by omega)
    obtain ⟨b, hb⟩ := Option.isSome_iff_exists.1 (h n (by omega))
    exact ⟨bs ++ [b], by simp [Memory.readList, hbs, hb]⟩

/-! ## The scan for a zero byte -/

/-- Everything the scan of STRIP can answer (43_result.md rule R123). -/
theorem Memory.scanZero_cases (m : Memory) (a n : Nat) :
    (∃ z, Memory.scanZero m a n = .zeroAt z ∧ a ≤ z ∧ z < a + n ∧ Memory.read m z = some 0 ∧
        ∀ x, a ≤ x → x < z → ∃ b, Memory.read m x = some b ∧ b ≠ 0) ∨
      (Memory.scanZero m a n = .noZero ∧ ∀ x, a ≤ x → x < a + n → ∃ b, Memory.read m x = some b ∧ b ≠ 0) ∨
      (∃ z, Memory.scanZero m a n = .noValue z ∧ a ≤ z ∧ z < a + n ∧ Memory.read m z = none ∧
        ∀ x, a ≤ x → x < z → ∃ b, Memory.read m x = some b ∧ b ≠ 0) := by
  induction n generalizing a with
  | zero => exact .inr (.inl ⟨rfl, fun x h1 h2 => absurd h2 (by omega)⟩)
  | succ n ih =>
    cases hr : Memory.read m a with
    | none => exact .inr (.inr ⟨a, by simp [Memory.scanZero, hr], le_rfl, by omega, hr, fun x h1 h2 => absurd h2 (by omega)⟩)
    | some b =>
      by_cases hb : b = 0
      · subst hb
        exact .inl ⟨a, by simp [Memory.scanZero, hr], le_rfl, by omega, hr, fun x h1 h2 => absurd h2 (by omega)⟩
      · have here : ∀ x, a ≤ x → ¬ a + 1 ≤ x → ∃ b, Memory.read m x = some b ∧ b ≠ 0 := fun x h1 h2 => by
          have : x = a := by omega
          exact this ▸ ⟨b, hr, hb⟩
        have hs : Memory.scanZero m a (n + 1) = Memory.scanZero m (a + 1) n := by
          simp only [Memory.scanZero, hr, if_neg hb]
        rw [hs]
        rcases ih (a + 1) with ⟨z, h1, h2, h3, h4, h5⟩ | ⟨h1, h2⟩ | ⟨z, h1, h2, h3, h4, h5⟩
        · exact .inl ⟨z, h1, by omega, by omega, h4, fun x h6 h7 => by
            by_cases h8 : a + 1 ≤ x
            · exact h5 x h8 h7
            · exact here x h6 h8⟩
        · exact .inr (.inl ⟨h1, fun x h6 h7 => by
            by_cases h8 : a + 1 ≤ x
            · exact h2 x h8 (by omega)
            · exact here x h6 h8⟩)
        · exact .inr (.inr ⟨z, h1, by omega, by omega, h4, fun x h6 h7 => by
            by_cases h8 : a + 1 ≤ x
            · exact h5 x h8 h7
            · exact here x h6 h8⟩)

end Sys2Proof.Machine
end

