-- ==== Sys2Proof/Laws/State.lean ====
section
/-! SUPPORT. What each named state update leaves in each field, true by rfl, so that no proof unfolds a record update. -/

namespace Sys2Proof.Machine

open Sys2Proof

/-! ## raise -/

@[simp] theorem raise_cap (x : Cause) (w : CmdWord) (s : State) : (raise x w s).cap = s.cap := rfl
@[simp] theorem raise_port (x : Cause) (w : CmdWord) (s : State) : (raise x w s).port = s.port := rfl
@[simp] theorem raise_mb (x : Cause) (w : CmdWord) (s : State) : (raise x w s).mb = s.mb := rfl
@[simp] theorem raise_len (x : Cause) (w : CmdWord) (s : State) : (raise x w s).len = s.len := rfl
@[simp] theorem raise_hdrDone (x : Cause) (w : CmdWord) (s : State) : (raise x w s).hdrDone = s.hdrDone := rfl
@[simp] theorem raise_hlen (x : Cause) (w : CmdWord) (s : State) : (raise x w s).hlen = s.hlen := rfl
@[simp] theorem raise_bodyLen (x : Cause) (w : CmdWord) (s : State) : (raise x w s).bodyLen = s.bodyLen := rfl
@[simp] theorem raise_marked (x : Cause) (w : CmdWord) (s : State) : (raise x w s).marked = s.marked := rfl
@[simp] theorem raise_poff (x : Cause) (w : CmdWord) (s : State) : (raise x w s).poff = s.poff := rfl
@[simp] theorem raise_padded (x : Cause) (w : CmdWord) (s : State) : (raise x w s).padded = s.padded := rfl
@[simp] theorem raise_plen (x : Cause) (w : CmdWord) (s : State) : (raise x w s).plen = s.plen := rfl
@[simp] theorem raise_stripped (x : Cause) (w : CmdWord) (s : State) : (raise x w s).stripped = s.stripped := rfl
@[simp] theorem raise_objOff (x : Cause) (w : CmdWord) (s : State) : (raise x w s).objOff = s.objOff := rfl
@[simp] theorem raise_objLen (x : Cause) (w : CmdWord) (s : State) : (raise x w s).objLen = s.objLen := rfl
@[simp] theorem raise_nonce (x : Cause) (w : CmdWord) (s : State) : (raise x w s).nonce = s.nonce := rfl
@[simp] theorem raise_target (x : Cause) (w : CmdWord) (s : State) : (raise x w s).target = s.target := rfl
@[simp] theorem raise_prec (x : Cause) (w : CmdWord) (s : State) : (raise x w s).prec = s.prec := rfl
@[simp] theorem raise_tlock (x : Cause) (w : CmdWord) (s : State) : (raise x w s).tlock = s.tlock := rfl
@[simp] theorem raise_digest (x : Cause) (w : CmdWord) (s : State) : (raise x w s).digest = s.digest := rfl
@[simp] theorem raise_matched (x : Cause) (w : CmdWord) (s : State) : (raise x w s).matched = s.matched := rfl
@[simp] theorem raise_rvalid (x : Cause) (w : CmdWord) (s : State) : (raise x w s).rvalid = s.rvalid := rfl
@[simp] theorem raise_result (x : Cause) (w : CmdWord) (s : State) : (raise x w s).result = s.result := rfl
@[simp] theorem raise_err (x : Cause) (w : CmdWord) (s : State) : (raise x w s).err = some x := rfl
@[simp] theorem raise_ecmd (x : Cause) (w : CmdWord) (s : State) : (raise x w s).ecmd = w := rfl

/-! ## recordMatch -/

@[simp] theorem recordMatch_cap (m : Bool) (s : State) : (recordMatch m s).cap = s.cap := rfl
@[simp] theorem recordMatch_port (m : Bool) (s : State) : (recordMatch m s).port = s.port := rfl
@[simp] theorem recordMatch_mb (m : Bool) (s : State) : (recordMatch m s).mb = s.mb := rfl
@[simp] theorem recordMatch_len (m : Bool) (s : State) : (recordMatch m s).len = s.len := rfl
@[simp] theorem recordMatch_hdrDone (m : Bool) (s : State) : (recordMatch m s).hdrDone = s.hdrDone := rfl
@[simp] theorem recordMatch_hlen (m : Bool) (s : State) : (recordMatch m s).hlen = s.hlen := rfl
@[simp] theorem recordMatch_bodyLen (m : Bool) (s : State) : (recordMatch m s).bodyLen = s.bodyLen := rfl
@[simp] theorem recordMatch_marked (m : Bool) (s : State) : (recordMatch m s).marked = s.marked := rfl
@[simp] theorem recordMatch_poff (m : Bool) (s : State) : (recordMatch m s).poff = s.poff := rfl
@[simp] theorem recordMatch_padded (m : Bool) (s : State) : (recordMatch m s).padded = s.padded := rfl
@[simp] theorem recordMatch_plen (m : Bool) (s : State) : (recordMatch m s).plen = s.plen := rfl
@[simp] theorem recordMatch_stripped (m : Bool) (s : State) : (recordMatch m s).stripped = s.stripped := rfl
@[simp] theorem recordMatch_objOff (m : Bool) (s : State) : (recordMatch m s).objOff = s.objOff := rfl
@[simp] theorem recordMatch_objLen (m : Bool) (s : State) : (recordMatch m s).objLen = s.objLen := rfl
@[simp] theorem recordMatch_nonce (m : Bool) (s : State) : (recordMatch m s).nonce = s.nonce := rfl
@[simp] theorem recordMatch_target (m : Bool) (s : State) : (recordMatch m s).target = s.target := rfl
@[simp] theorem recordMatch_prec (m : Bool) (s : State) : (recordMatch m s).prec = s.prec := rfl
@[simp] theorem recordMatch_tlock (m : Bool) (s : State) : (recordMatch m s).tlock = true := rfl
@[simp] theorem recordMatch_digest (m : Bool) (s : State) : (recordMatch m s).digest = s.digest := rfl
@[simp] theorem recordMatch_matched (m : Bool) (s : State) : (recordMatch m s).matched = m := rfl
@[simp] theorem recordMatch_rvalid (m : Bool) (s : State) : (recordMatch m s).rvalid = (s.rvalid || m) := rfl
@[simp] theorem recordMatch_result (m : Bool) (s : State) : (recordMatch m s).result = (if m = true ∧ s.rvalid = false then s.nonce else s.result) := rfl
@[simp] theorem recordMatch_err (m : Bool) (s : State) : (recordMatch m s).err = s.err := rfl
@[simp] theorem recordMatch_ecmd (m : Bool) (s : State) : (recordMatch m s).ecmd = s.ecmd := rfl

/-! ## recordDigit -/

@[simp] theorem recordDigit_cap (d : BitVec 4) (s : State) : (recordDigit d s).cap = s.cap := rfl
@[simp] theorem recordDigit_port (d : BitVec 4) (s : State) : (recordDigit d s).port = s.port := rfl
@[simp] theorem recordDigit_mb (d : BitVec 4) (s : State) : (recordDigit d s).mb = s.mb := rfl
@[simp] theorem recordDigit_len (d : BitVec 4) (s : State) : (recordDigit d s).len = s.len := rfl
@[simp] theorem recordDigit_hdrDone (d : BitVec 4) (s : State) : (recordDigit d s).hdrDone = s.hdrDone := rfl
@[simp] theorem recordDigit_hlen (d : BitVec 4) (s : State) : (recordDigit d s).hlen = s.hlen := rfl
@[simp] theorem recordDigit_bodyLen (d : BitVec 4) (s : State) : (recordDigit d s).bodyLen = s.bodyLen := rfl
@[simp] theorem recordDigit_marked (d : BitVec 4) (s : State) : (recordDigit d s).marked = s.marked := rfl
@[simp] theorem recordDigit_poff (d : BitVec 4) (s : State) : (recordDigit d s).poff = s.poff := rfl
@[simp] theorem recordDigit_padded (d : BitVec 4) (s : State) : (recordDigit d s).padded = s.padded := rfl
@[simp] theorem recordDigit_plen (d : BitVec 4) (s : State) : (recordDigit d s).plen = s.plen := rfl
@[simp] theorem recordDigit_stripped (d : BitVec 4) (s : State) : (recordDigit d s).stripped = s.stripped := rfl
@[simp] theorem recordDigit_objOff (d : BitVec 4) (s : State) : (recordDigit d s).objOff = s.objOff := rfl
@[simp] theorem recordDigit_objLen (d : BitVec 4) (s : State) : (recordDigit d s).objLen = s.objLen := rfl
@[simp] theorem recordDigit_nonce (d : BitVec 4) (s : State) : (recordDigit d s).nonce = s.nonce := rfl
@[simp] theorem recordDigit_target (d : BitVec 4) (s : State) : (recordDigit d s).target = putTargetDigit s.target (s.prec.toNat / 4) d := rfl
@[simp] theorem recordDigit_prec (d : BitVec 4) (s : State) : (recordDigit d s).prec = BitVec.ofNat 8 (s.prec.toNat + 4) := rfl
@[simp] theorem recordDigit_tlock (d : BitVec 4) (s : State) : (recordDigit d s).tlock = s.tlock := rfl
@[simp] theorem recordDigit_digest (d : BitVec 4) (s : State) : (recordDigit d s).digest = s.digest := rfl
@[simp] theorem recordDigit_matched (d : BitVec 4) (s : State) : (recordDigit d s).matched = s.matched := rfl
@[simp] theorem recordDigit_rvalid (d : BitVec 4) (s : State) : (recordDigit d s).rvalid = s.rvalid := rfl
@[simp] theorem recordDigit_result (d : BitVec 4) (s : State) : (recordDigit d s).result = s.result := rfl
@[simp] theorem recordDigit_err (d : BitVec 4) (s : State) : (recordDigit d s).err = s.err := rfl
@[simp] theorem recordDigit_ecmd (d : BitVec 4) (s : State) : (recordDigit d s).ecmd = s.ecmd := rfl

/-! ## recordObject -/

@[simp] theorem recordObject_cap (z : Nat) (s : State) : (recordObject z s).cap = s.cap := rfl
@[simp] theorem recordObject_port (z : Nat) (s : State) : (recordObject z s).port = s.port := rfl
@[simp] theorem recordObject_mb (z : Nat) (s : State) : (recordObject z s).mb = s.mb := rfl
@[simp] theorem recordObject_len (z : Nat) (s : State) : (recordObject z s).len = s.len := rfl
@[simp] theorem recordObject_hdrDone (z : Nat) (s : State) : (recordObject z s).hdrDone = s.hdrDone := rfl
@[simp] theorem recordObject_hlen (z : Nat) (s : State) : (recordObject z s).hlen = s.hlen := rfl
@[simp] theorem recordObject_bodyLen (z : Nat) (s : State) : (recordObject z s).bodyLen = s.bodyLen := rfl
@[simp] theorem recordObject_marked (z : Nat) (s : State) : (recordObject z s).marked = s.marked := rfl
@[simp] theorem recordObject_poff (z : Nat) (s : State) : (recordObject z s).poff = s.poff := rfl
@[simp] theorem recordObject_padded (z : Nat) (s : State) : (recordObject z s).padded = s.padded := rfl
@[simp] theorem recordObject_plen (z : Nat) (s : State) : (recordObject z s).plen = s.plen := rfl
@[simp] theorem recordObject_stripped (z : Nat) (s : State) : (recordObject z s).stripped = true := rfl
@[simp] theorem recordObject_objOff (z : Nat) (s : State) : (recordObject z s).objOff = BitVec.ofNat 32 (z + 1) := rfl
@[simp] theorem recordObject_objLen (z : Nat) (s : State) : (recordObject z s).objLen = BitVec.ofNat 32 (s.len.toNat - (z + 1)) := rfl
@[simp] theorem recordObject_nonce (z : Nat) (s : State) : (recordObject z s).nonce = s.nonce := rfl
@[simp] theorem recordObject_target (z : Nat) (s : State) : (recordObject z s).target = s.target := rfl
@[simp] theorem recordObject_prec (z : Nat) (s : State) : (recordObject z s).prec = s.prec := rfl
@[simp] theorem recordObject_tlock (z : Nat) (s : State) : (recordObject z s).tlock = s.tlock := rfl
@[simp] theorem recordObject_digest (z : Nat) (s : State) : (recordObject z s).digest = s.digest := rfl
@[simp] theorem recordObject_matched (z : Nat) (s : State) : (recordObject z s).matched = s.matched := rfl
@[simp] theorem recordObject_rvalid (z : Nat) (s : State) : (recordObject z s).rvalid = s.rvalid := rfl
@[simp] theorem recordObject_result (z : Nat) (s : State) : (recordObject z s).result = s.result := rfl
@[simp] theorem recordObject_err (z : Nat) (s : State) : (recordObject z s).err = s.err := rfl
@[simp] theorem recordObject_ecmd (z : Nat) (s : State) : (recordObject z s).ecmd = s.ecmd := rfl

/-! ## resetEvent -/

@[simp] theorem resetEvent_cap (s : State) : (resetEvent s).cap = s.cap := rfl
@[simp] theorem resetEvent_port (s : State) : (resetEvent s).port = s.port := rfl
@[simp] theorem resetEvent_mb (s : State) : (resetEvent s).mb = [] := rfl
@[simp] theorem resetEvent_len (s : State) : (resetEvent s).len = 0 := rfl
@[simp] theorem resetEvent_hdrDone (s : State) : (resetEvent s).hdrDone = false := rfl
@[simp] theorem resetEvent_hlen (s : State) : (resetEvent s).hlen = 0 := rfl
@[simp] theorem resetEvent_bodyLen (s : State) : (resetEvent s).bodyLen = 0 := rfl
@[simp] theorem resetEvent_marked (s : State) : (resetEvent s).marked = false := rfl
@[simp] theorem resetEvent_poff (s : State) : (resetEvent s).poff = 0 := rfl
@[simp] theorem resetEvent_padded (s : State) : (resetEvent s).padded = false := rfl
@[simp] theorem resetEvent_plen (s : State) : (resetEvent s).plen = 0 := rfl
@[simp] theorem resetEvent_stripped (s : State) : (resetEvent s).stripped = false := rfl
@[simp] theorem resetEvent_objOff (s : State) : (resetEvent s).objOff = 0 := rfl
@[simp] theorem resetEvent_objLen (s : State) : (resetEvent s).objLen = 0 := rfl
@[simp] theorem resetEvent_nonce (s : State) : (resetEvent s).nonce = 0 := rfl
@[simp] theorem resetEvent_target (s : State) : (resetEvent s).target = ⟨0, 0, 0, 0, 0⟩ := rfl
@[simp] theorem resetEvent_prec (s : State) : (resetEvent s).prec = 0 := rfl
@[simp] theorem resetEvent_tlock (s : State) : (resetEvent s).tlock = false := rfl
@[simp] theorem resetEvent_digest (s : State) : (resetEvent s).digest = ⟨0, 0, 0, 0, 0⟩ := rfl
@[simp] theorem resetEvent_matched (s : State) : (resetEvent s).matched = false := rfl
@[simp] theorem resetEvent_rvalid (s : State) : (resetEvent s).rvalid = false := rfl
@[simp] theorem resetEvent_result (s : State) : (resetEvent s).result = 0 := rfl
@[simp] theorem resetEvent_err (s : State) : (resetEvent s).err = none := rfl
@[simp] theorem resetEvent_ecmd (s : State) : (resetEvent s).ecmd = 0 := rfl

/-! ## withFetchWord -/

@[simp] theorem withFetchWord_cap (nbits w : Nat) (s : State) : (s.withFetchWord nbits w).cap = s.cap := rfl
@[simp] theorem withFetchWord_port (nbits w : Nat) (s : State) : (s.withFetchWord nbits w).port = HostEvent.command (tableWord nbits w) :: s.port := rfl
@[simp] theorem withFetchWord_mb (nbits w : Nat) (s : State) : (s.withFetchWord nbits w).mb = s.mb := rfl
@[simp] theorem withFetchWord_len (nbits w : Nat) (s : State) : (s.withFetchWord nbits w).len = s.len := rfl
@[simp] theorem withFetchWord_hdrDone (nbits w : Nat) (s : State) : (s.withFetchWord nbits w).hdrDone = s.hdrDone := rfl
@[simp] theorem withFetchWord_hlen (nbits w : Nat) (s : State) : (s.withFetchWord nbits w).hlen = s.hlen := rfl
@[simp] theorem withFetchWord_bodyLen (nbits w : Nat) (s : State) : (s.withFetchWord nbits w).bodyLen = s.bodyLen := rfl
@[simp] theorem withFetchWord_marked (nbits w : Nat) (s : State) : (s.withFetchWord nbits w).marked = s.marked := rfl
@[simp] theorem withFetchWord_poff (nbits w : Nat) (s : State) : (s.withFetchWord nbits w).poff = s.poff := rfl
@[simp] theorem withFetchWord_padded (nbits w : Nat) (s : State) : (s.withFetchWord nbits w).padded = s.padded := rfl
@[simp] theorem withFetchWord_plen (nbits w : Nat) (s : State) : (s.withFetchWord nbits w).plen = s.plen := rfl
@[simp] theorem withFetchWord_stripped (nbits w : Nat) (s : State) : (s.withFetchWord nbits w).stripped = s.stripped := rfl
@[simp] theorem withFetchWord_objOff (nbits w : Nat) (s : State) : (s.withFetchWord nbits w).objOff = s.objOff := rfl
@[simp] theorem withFetchWord_objLen (nbits w : Nat) (s : State) : (s.withFetchWord nbits w).objLen = s.objLen := rfl
@[simp] theorem withFetchWord_nonce (nbits w : Nat) (s : State) : (s.withFetchWord nbits w).nonce = s.nonce := rfl
@[simp] theorem withFetchWord_target (nbits w : Nat) (s : State) : (s.withFetchWord nbits w).target = s.target := rfl
@[simp] theorem withFetchWord_prec (nbits w : Nat) (s : State) : (s.withFetchWord nbits w).prec = s.prec := rfl
@[simp] theorem withFetchWord_tlock (nbits w : Nat) (s : State) : (s.withFetchWord nbits w).tlock = s.tlock := rfl
@[simp] theorem withFetchWord_digest (nbits w : Nat) (s : State) : (s.withFetchWord nbits w).digest = s.digest := rfl
@[simp] theorem withFetchWord_matched (nbits w : Nat) (s : State) : (s.withFetchWord nbits w).matched = s.matched := rfl
@[simp] theorem withFetchWord_rvalid (nbits w : Nat) (s : State) : (s.withFetchWord nbits w).rvalid = s.rvalid := rfl
@[simp] theorem withFetchWord_result (nbits w : Nat) (s : State) : (s.withFetchWord nbits w).result = s.result := rfl
@[simp] theorem withFetchWord_err (nbits w : Nat) (s : State) : (s.withFetchWord nbits w).err = s.err := rfl
@[simp] theorem withFetchWord_ecmd (nbits w : Nat) (s : State) : (s.withFetchWord nbits w).ecmd = s.ecmd := rfl

/-! ## Functions of the state that an update of other fields does not change -/

@[simp] theorem capacity_raise (x : Cause) (w : CmdWord) (s : State) : (raise x w s).capacity = s.capacity := rfl
@[simp] theorem vext_raise (x : Cause) (w : CmdWord) (s : State) : (raise x w s).vext = s.vext := rfl
@[simp] theorem byte_raise (x : Cause) (w : CmdWord) (s : State) (a : Nat) : (raise x w s).byte a = s.byte a := rfl
@[simp] theorem halted_raise (x : Cause) (w : CmdWord) (s : State) : (raise x w s).halted = true := rfl
@[simp] theorem byte_recordMatch (m : Bool) (s : State) (a : Nat) : (recordMatch m s).byte a = s.byte a := rfl
@[simp] theorem byte_recordDigit (d : BitVec 4) (s : State) (a : Nat) : (recordDigit d s).byte a = s.byte a := rfl
@[simp] theorem byte_recordObject (z : Nat) (s : State) (a : Nat) : (recordObject z s).byte a = s.byte a := rfl
@[simp] theorem vext_recordMatch (m : Bool) (s : State) : (recordMatch m s).vext = s.vext := rfl
@[simp] theorem vext_recordDigit (d : BitVec 4) (s : State) : (recordDigit d s).vext = s.vext := rfl
@[simp] theorem vext_recordObject (z : Nat) (s : State) : (recordObject z s).vext = s.vext := rfl
@[simp] theorem capacity_resetEvent (s : State) : (resetEvent s).capacity = s.capacity := rfl
@[simp] theorem vext_resetEvent (s : State) : (resetEvent s).vext = 0 := rfl

theorem halted_iff (s : State) : s.halted = true ↔ s.err ≠ none := by
  simp [State.halted, Option.isSome_iff_ne_none]

theorem not_halted_iff (s : State) : s.halted = false ↔ s.err = none := by
  simp [State.halted]

theorem vext_of_padded {s : State} (h : s.padded = true) : s.vext = s.plen.toNat := by simp [State.vext, h]

theorem vext_of_not_padded {s : State} (h : s.padded = false) : s.vext = s.len.toNat := by simp [State.vext, h]

/-- The buffer after reset has the canonical form. -/
theorem reset_wf : Memory.wf State.reset.mb = true := rfl

/-- A capacity is at least one block and below 2^32 - 63 (00_scope.md rule R5). -/
theorem Capacity.bounds (c : Capacity) : 64 ≤ c.bytes ∧ c.bytes ≤ 4294967232 ∧ c.bytes % 64 = 0 := by
  have := c.isLt
  unfold Capacity.bytes
  omega

theorem State.capacity_bounds (s : State) : 64 ≤ s.capacity ∧ s.capacity ≤ 4294967232 ∧ s.capacity % 64 = 0 :=
  Capacity.bounds s.cap

end Sys2Proof.Machine
end

