-- ==== Sys2Proof/Laws/Target.lean ====
section
/-! SUPPORT. Single words and single digits of TARGET and DIGEST (spec 41_target_match.md rules R90, R91 and R93). -/

namespace Sys2Proof.Machine

open Sys2Proof

/-- Reading a word after one was replaced. -/
theorem Words5.get_set (t : Words5) {j k : Nat} (v : Word) (hj : j ≤ 4) (hk : k ≤ 4) :
    (t.set j v).get k = if k = j then v else t.get k := by
  obtain h | h | h | h | h : j = 0 ∨ j = 1 ∨ j = 2 ∨ j = 3 ∨ j = 4 := by omega
  all_goals obtain g | g | g | g | g : k = 0 ∨ k = 1 ∨ k = 2 ∨ k = 3 ∨ k = 4 := by omega
  all_goals
    subst h
    subst g
    rfl

/-- Two values of five words are equal when their words are. -/
theorem Words5.ext_get {x y : Words5} (h : ∀ j, j ≤ 4 → x.get j = y.get j) : x = y := by
  obtain ⟨a, b, c, d, e⟩ := x
  obtain ⟨a', b', c', d', e'⟩ := y
  have h0 : a = a' := h 0 (by decide)
  have h1 : b = b' := h 1 (by decide)
  have h2 : c = c' := h 2 (by decide)
  have h3 : d = d' := h 3 (by decide)
  have h4 : e = e' := h 4 (by decide)
  subst h0 h1 h2 h3 h4
  rfl

/-- Every bit of a word with one digit replaced. -/
theorem setDigit_getLsbD (w : Word) {s : Nat} (d : BitVec 4) {b : Nat} (hb : b < 32) :
    (setDigit w s d).getLsbD b = if s ≤ b ∧ b < s + 4 then d.getLsbD (b - s) else w.getLsbD b := by
  have hF : ∀ k, (0xF : Word).getLsbD k = decide (k < 4) := fun k => by
    by_cases hk : k < 32
    · revert k
      decide
    · rw [BitVec.getLsbD_of_ge _ _ (by omega)]
      simp
      omega
  unfold setDigit
  simp only [BitVec.getLsbD_or, BitVec.getLsbD_and, BitVec.getLsbD_not, BitVec.getLsbD_shiftLeft, hF,
    BitVec.getLsbD_setWidth, hb]
  by_cases h1 : b < s
  · have : ¬ (s ≤ b ∧ b < s + 4) := by omega
    simp [h1, this]
  · by_cases h2 : b < s + 4
    · have h3 : b - s < 4 := by omega
      have h4 : b - s < 32 := by omega
      have h5 : s ≤ b ∧ b < s + 4 := by omega
      simp [h1, h3, h4, h5]
    · have h3 : ¬ b - s < 4 := by omega
      have h5 : ¬ (s ≤ b ∧ b < s + 4) := by omega
      have h6 := d.getLsbD_of_ge (b - s) (by omega)
      simp [h1, h3, h5, h6]

/-- The replaced digit reads back. -/
theorem setDigit_digit (w : Word) {s : Nat} (hs : s ≤ 28) (d : BitVec 4) : (setDigit w s d).extractLsb' s 4 = d := by
  apply BitVec.eq_of_getLsbD_eq
  intro i hi
  rw [BitVec.getLsbD_extractLsb', setDigit_getLsbD w d (by omega), if_pos (by omega)]
  simp [hi]

/-- Another digit of the same word is unchanged. -/
theorem setDigit_other (w : Word) {s r : Nat} (hr : r ≤ 28) (h : r + 4 ≤ s ∨ s + 4 ≤ r) (d : BitVec 4) :
    (setDigit w s d).extractLsb' r 4 = w.extractLsb' r 4 := by
  apply BitVec.eq_of_getLsbD_eq
  intro i hi
  rw [BitVec.getLsbD_extractLsb', BitVec.getLsbD_extractLsb', setDigit_getLsbD w d (by omega), if_neg (by omega)]

/-- A word built from eight digits has them in order, the first in bits 31:28. -/
theorem wordOfDigits_digit (h : Nat → BitVec 4) (j : Nat) {r : Nat} (hr : r < 8) :
    (wordOfDigits h j).extractLsb' (28 - 4 * r) 4 = h (8 * j + r) := by
  have join : ∀ {n : Nat} (a : BitVec n) (b : BitVec 4), (a ++ b).toNat = a.toNat * 2 ^ 4 + b.toNat := fun a b => by
    rw [BitVec.toNat_append, ← Nat.shiftLeft_add_eq_or_of_lt b.isLt, Nat.shiftLeft_eq]
  apply BitVec.eq_of_toNat_eq
  rw [BitVec.extractLsb'_toNat, Nat.shiftRight_eq_div_pow]
  unfold wordOfDigits
  erw [join, join, join, join, join, join, join]
  have := (h (8 * j)).isLt
  have := (h (8 * j + 1)).isLt
  have := (h (8 * j + 2)).isLt
  have := (h (8 * j + 3)).isLt
  have := (h (8 * j + 4)).isLt
  have := (h (8 * j + 5)).isLt
  have := (h (8 * j + 6)).isLt
  have := (h (8 * j + 7)).isLt
  obtain hr | hr | hr | hr | hr | hr | hr | hr : r = 0 ∨ r = 1 ∨ r = 2 ∨ r = 3 ∨ r = 4 ∨ r = 5 ∨ r = 6 ∨ r = 7 := by omega
  all_goals
    subst hr
    norm_num
    omega

end Sys2Proof.Machine
end

