-- ==== Sys2Proof/Laws/Text.lean ====
section
/-! SUPPORT. Lengths, bounds and single bytes of the text and padding functions (spec 00_scope.md rules R6 to R9,
40_padding.md rules R80, R81 and R84, 42_framing.md rule R110). -/

namespace Sys2Proof.Machine

open Sys2Proof

/-! ## Hexadecimal -/

theorem hexU_ne_zero (v : BitVec 4) : hexU v ≠ 0 := by
  revert v
  decide

@[simp] theorem hexval_hexU (v : BitVec 4) : hexval (hexU v) = some v := by
  revert v
  decide

@[simp] theorem hex16_length (n : Nonce) : (hex16 n).length = 16 := by
  simp [hex16, placeholderBytes]

theorem hex16_getElem? (n : Nonce) {i : Nat} (h : i < 16) : (hex16 n)[i]? = some (hexU (nonceDigit n i)) := by
  simp [hex16, placeholderBytes, h]

/-! ## Decimal -/

theorem decDigit_toNat {d : Nat} (h : d < 10) : (decDigit d).toNat = 0x30 + d := by
  simp only [decDigit, BitVec.toNat_ofNat]
  omega

theorem decDigit_ne_zero {d : Nat} (h : d < 10) : decDigit d ≠ 0 := by
  intro h0
  have := decDigit_toNat h
  rw [h0, show (0 : Byte).toNat = 0 from rfl] at this
  omega

/-- With enough fuel, more fuel changes nothing. -/
theorem decWithFuel_stable {f n : Nat} (h : n < 10 ^ (f + 1)) (k : Nat) : decWithFuel (f + k) n = decWithFuel f n := by
  induction f generalizing n with
  | zero =>
    have : n < 10 := by simpa using h
    cases k with
    | zero => rfl
    | succ k =>
      rw [show 0 + (k + 1) = k + 1 by omega]
      simp [decWithFuel, this]
  | succ f ih =>
    rw [show f + 1 + k = (f + k) + 1 by omega]
    simp only [decWithFuel]
    split
    · rfl
    · rw [ih]
      rw [Nat.div_lt_iff_lt_mul (by decide)]
      rw [pow_succ] at h
      exact h

theorem dec_of_lt {n : Nat} (h : n < 10) : dec n = [decDigit n] := by
  simp [dec, decWithFuel, h]

theorem dec_of_ge {n : Nat} (h : 10 ≤ n) (h' : n < 2 ^ 32) : dec n = dec (n / 10) ++ [decDigit (n % 10)] := by
  have h1 : ¬ n < 10 := by omega
  have h2 := decWithFuel_stable (f := 9) (n := n / 10) (by omega) 1
  simp only [dec, decWithFuel, h1, if_false] at *
  rw [h2]

theorem decWithFuel_length (f n : Nat) : 1 ≤ (decWithFuel f n).length ∧ (decWithFuel f n).length ≤ f + 1 := by
  induction f generalizing n with
  | zero => simp [decWithFuel]
  | succ f ih =>
    simp only [decWithFuel]
    split
    · simp
    · have := ih (n / 10)
      simp only [List.length_append, List.length_cons, List.length_nil]
      omega

/-- A number below 2^32 has one to ten decimal digits. -/
theorem dec_length {n : Nat} (h : n < 2 ^ 32) : 1 ≤ (dec n).length ∧ (dec n).length ≤ 10 := by
  have h1 := decWithFuel_stable (f := 9) (n := n) (by omega) 1
  have h2 := decWithFuel_length 9 n
  have h3 : dec n = decWithFuel 9 n := h1
  rw [h3]
  exact h2

theorem decWithFuel_digits (f n : Nat) (h : n < 10 ^ (f + 1)) : ∀ c ∈ decWithFuel f n, ∃ d, d < 10 ∧ c = decDigit d := by
  induction f generalizing n with
  | zero =>
    intro c hc
    simp only [decWithFuel, List.mem_singleton] at hc
    exact ⟨n, by simpa using h, hc⟩
  | succ f ih =>
    intro c hc
    simp only [decWithFuel] at hc
    split at hc
    · exact ⟨n, by assumption, by simpa using hc⟩
    · rcases List.mem_append.1 hc with h1 | h1
      · refine ih (n / 10) ?_ c h1
        rw [Nat.div_lt_iff_lt_mul (by decide)]
        rw [pow_succ] at h
        exact h
      · exact ⟨n % 10, Nat.mod_lt _ (by decide), by simpa using h1⟩

/-- Every byte of a decimal numeral is a digit character. -/
theorem dec_digits {n : Nat} (h : n < 2 ^ 32) : ∀ c ∈ dec n, ∃ d, d < 10 ∧ c = decDigit d :=
  decWithFuel_digits 10 n (by omega)

/-! ## The commit-object header -/

theorem commitHeader_length (n : Word) : (commitHeader n).length = 8 + (dec n.toNat).length := by
  simp [commitHeader, headerLiteral]
  omega

theorem commitHeader_length_bounds (n : Word) : 9 ≤ (commitHeader n).length ∧ (commitHeader n).length ≤ 18 := by
  have := dec_length n.isLt
  rw [commitHeader_length]
  omega

/-- The header ends with its only zero byte. -/
theorem commitHeader_split (n : Word) :
    ∃ front, commitHeader n = front ++ [0] ∧ front.length = 7 + (dec n.toNat).length ∧ ∀ c ∈ front, c ≠ 0 := by
  refine ⟨headerLiteral ++ dec n.toNat, rfl, by simp [headerLiteral]; omega, fun c hc => ?_⟩
  rcases List.mem_append.1 hc with h | h
  · have lit : ∀ c ∈ headerLiteral, c ≠ 0 := by decide
    exact lit c h
  · obtain ⟨d, hd, rfl⟩ := dec_digits n.isLt c h
    exact decDigit_ne_zero hd

/-! ## Padding -/

theorem padLen_eq (len : Nat) : padLen len = 64 * ((len + 72) / 64) := by
  unfold padLen padBlocks blockBytes padThreshold
  split <;> omega

theorem padLen_bounds (len : Nat) : len + 9 ≤ padLen len ∧ padLen len ≤ len + 72 ∧ padLen len % 64 = 0 := by
  rw [padLen_eq]
  omega

@[simp] theorem be64_length (n : Nat) : (be64 n).length = 8 := by
  simp [be64, lengthFieldBytes]

theorem be64_getElem? (n : Nat) {j : Nat} (h : j < 8) : (be64 n)[j]? = some (BitVec.ofNat 8 (n / 2 ^ (8 * (7 - j)))) := by
  simp [be64, lengthFieldBytes, h]

theorem padTail_length (len : Nat) : (padTail len).length = padLen len - len := by
  have := padLen_bounds len
  simp [padTail]
  omega

theorem pad_length (d : List Byte) : (pad d).length = padLen d.length := by
  have := padLen_bounds d.length
  simp [pad, padTail_length]
  omega

end Sys2Proof.Machine
end

