-- ==== Sys2Proof/Laws/Ops.lean ====
section
/-! SUPPORT. What each shared operation, and each command, can answer: proofs cite these and do not unfold the meanings. -/

namespace Sys2Proof.Machine

open Sys2Proof

/-! ## Shared operations -/

/-- Everything a command word can answer with a next state (60_exceptions.md rules R132 to R134). -/
theorem command_next {w : CmdWord} {check : Option Cause} {s t : State} {effect : Result}
    (h : command w check s effect = .next t) :
    (s.err ≠ none ∧ t = s) ∨ (∃ x, s.err = none ∧ check = some x ∧ t = raise x w s) ∨
      (s.err = none ∧ check = none ∧ effect = .next t) := by
  unfold command at h
  split at h
  case isTrue hh =>
    cases h
    exact .inl ⟨(halted_iff _).1 hh, rfl⟩
  case isFalse hh =>
    have he : s.err = none := (not_halted_iff s).1 (by simpa using hh)
    split at h
    · cases h
      exact .inr (.inl ⟨_, he, rfl, rfl⟩)
    · exact .inr (.inr ⟨he, rfl, h⟩)

/-- A command that makes no check raises nothing. -/
theorem command_next_unchecked {w : CmdWord} {s t : State} {effect : Result} (h : command w none s effect = .next t) :
    (s.err ≠ none ∧ t = s) ∨ (s.err = none ∧ effect = .next t) := by
  obtain h | ⟨_, -, h, -⟩ | ⟨h1, -, h2⟩ := command_next h
  · exact .inl h
  · cases h
  · exact .inr ⟨h1, h2⟩

theorem command_halted {w : CmdWord} {check : Option Cause} {s : State} {effect : Result} (h : s.err ≠ none) :
    command w check s effect = .next s := by
  simp [command, (halted_iff s).2 h]

theorem command_raises {w : CmdWord} {x : Cause} {s : State} {effect : Result} (h : s.err = none) :
    command w (some x) s effect = .next (raise x w s) := by
  simp [command, (not_halted_iff s).2 h]

theorem command_runs {w : CmdWord} {s : State} {effect : Result} (h : s.err = none) :
    command w none s effect = effect := by
  simp [command, (not_halted_iff s).2 h]

theorem storing_fits {a : Nat} {bs : List Byte} {s : State} {k : State → Result} (h : a + bs.length ≤ s.capacity) :
    storing a bs s k = k { s with mb := Memory.writeList s.mb a bs } := by
  simp [storing, h]

theorem storing_next {a : Nat} {bs : List Byte} {s t : State} {k : State → Result} (h : storing a bs s k = .next t) :
    a + bs.length ≤ s.capacity ∧ k { s with mb := Memory.writeList s.mb a bs } = .next t := by
  unfold storing at h
  split at h
  · exact ⟨by assumption, h⟩
  · cases h

theorem withPrecision_next {s t : State} {effect : Result} (h : withPrecision s effect = .next t) :
    s.prec.toNat ≤ 160 ∧ effect = .next t := by
  unfold withPrecision at h
  split at h
  · exact ⟨by assumption, h⟩
  · cases h

theorem withPrecision_runs {s : State} {effect : Result} (h : s.prec.toNat ≤ 160) : withPrecision s effect = effect := by
  simp [withPrecision, digestBits, h]

/-- The byte at an address after a store: the stored byte inside, the old byte outside. -/
theorem byte_store (s : State) (a : Nat) (bs : List Byte) (x : Nat) :
    ({ s with mb := Memory.writeList s.mb a bs } : State).byte x =
      if a ≤ x ∧ x < a + bs.length then bs[x - a]? else s.byte x :=
  Memory.read_writeList s.mb a bs x

/-- The scan of STRIP meets no `0x00` exactly when every data byte holds a value other than `0x00`. -/
theorem scanZero_eq_noZero {m : Memory} {n : Nat} :
    Memory.scanZero m 0 n = .noZero ↔ ∀ a, a < n → ∃ b, Memory.read m a = some b ∧ b ≠ 0 := by
  rcases Memory.scanZero_cases m 0 n with ⟨z, h1, -, h3, h4, -⟩ | ⟨h1, h2⟩ | ⟨z, h1, -, h3, h4, -⟩
  · refine ⟨fun h => by simp [h1] at h, fun h => ?_⟩
    obtain ⟨b, hb, hn⟩ := h z (by omega)
    simp_all
  · exact ⟨fun _ a ha => h2 a (by omega) (by omega), fun _ => h1⟩
  · refine ⟨fun h => by simp [h1] at h, fun h => ?_⟩
    obtain ⟨b, hb, -⟩ := h z (by omega)
    simp_all

/-! ## Checks -/

theorem checkHdr_eq_none {s : State} : checkHdr s = none ↔ s.padded = false ∧ s.len = 0 := by
  unfold checkHdr
  split
  case isTrue h => rcases h with h | h <;> simp_all
  case isFalse h => simp_all

theorem checkPutb_eq_none {s : State} : checkPutb s = none ↔ s.padded = false ∧ s.len.toNat ≠ s.capacity := by
  unfold checkPutb
  split <;> simp_all

theorem checkMark_eq_none {s : State} :
    checkMark s = none ↔ s.padded = false ∧ s.marked = false ∧ s.len.toNat + 16 ≤ s.capacity := by
  unfold checkMark placeholderBytes
  split
  case isTrue h => rcases h with h | h <;> simp_all
  case isFalse h => split <;> simp_all

theorem checkPad_eq_none {s : State} :
    checkPad s = none ↔ s.padded = false ∧
      (s.hdrDone = true → (s.len.toNat : Int) - s.hlen.toNat = s.bodyLen.toNat) ∧ padLen s.len.toNat ≤ s.capacity := by
  unfold checkPad
  split
  · simp_all
  · split
    · simp_all
    · split <;> simp_all

theorem checkSplice_eq_none {s : State} : checkSplice s = none ↔ s.marked = true := by
  unfold checkSplice
  split <;> simp_all

theorem checkStrip_eq_none {s : State} :
    checkStrip s = none ↔ s.padded = true ∧ Memory.scanZero s.mb 0 s.len.toNat ≠ .noZero := by
  unfold checkStrip
  split
  · simp_all
  · split <;> simp_all

theorem checkPutc_eq_none {c : Byte} {s : State} :
    checkPutc c s = none ↔ s.tlock = false ∧ s.prec.toNat ≠ 160 ∧ ∃ d, hexval c = some d := by
  unfold checkPutc digestBits
  split
  · simp_all
  · split
    · simp_all
    · split
      · simp_all
      · simp_all [Option.isNone_iff_eq_none, Option.ne_none_iff_exists']

/-! ## What each command can answer -/

/-- A command's answer is a discard (halted), a raised fault, or its effect. -/
def answers (w : CmdWord) (s t : State) (effect : Prop) : Prop :=
  (s.err ≠ none ∧ t = s) ∨ (∃ x, s.err = none ∧ t = raise x w s) ∨ (s.err = none ∧ effect)

/-- The answer of a command that raises no fault: a discard or its effect. -/
def answersNoFault (s t : State) (effect : Prop) : Prop := (s.err ≠ none ∧ t = s) ∨ (s.err = none ∧ effect)

theorem execHdr_next {n : Word} {s t : State} (h : execHdr n s = .next t) :
    answers (encode (.hdr n)) s t
      (s.padded = false ∧ s.len = 0 ∧
        t = { s with
              mb := Memory.writeList s.mb 0 (commitHeader n)
              len := BitVec.ofNat 32 (commitHeader n).length
              hlen := BitVec.ofNat 32 (commitHeader n).length
              bodyLen := n
              hdrDone := true }) := by
  rcases command_next h with h | ⟨x, h1, -, h3⟩ | ⟨h1, h2, h3⟩
  · exact .inl h
  · exact .inr (.inl ⟨x, h1, h3⟩)
  · have hc := checkHdr_eq_none.1 h2
    obtain ⟨-, h4⟩ := storing_next h3
    cases h4
    exact .inr (.inr ⟨h1, hc.1, hc.2, rfl⟩)

theorem execPutb_next {b : Byte} {s t : State} (h : execPutb b s = .next t) :
    answers (encode (.putb b)) s t
      (s.padded = false ∧ s.len.toNat < s.capacity ∧
        t = { s with
              mb := Memory.writeList s.mb s.len.toNat [b]
              len := BitVec.ofNat 32 (s.len.toNat + 1) }) := by
  rcases command_next h with h | ⟨x, h1, -, h3⟩ | ⟨h1, h2, h3⟩
  · exact .inl h
  · exact .inr (.inl ⟨x, h1, h3⟩)
  · have hc := checkPutb_eq_none.1 h2
    obtain ⟨h5, h4⟩ := storing_next h3
    cases h4
    exact .inr (.inr ⟨h1, hc.1, h5, rfl⟩)

theorem execMark_next {s t : State} (h : execMark s = .next t) :
    answers (encode .mark) s t
      (s.padded = false ∧ s.marked = false ∧ s.len.toNat + 16 ≤ s.capacity ∧
        t = { s with
              mb := Memory.writeList s.mb s.len.toNat (List.replicate 16 0x46)
              poff := s.len
              len := BitVec.ofNat 32 (s.len.toNat + 16)
              marked := true }) := by
  rcases command_next h with h | ⟨x, h1, -, h3⟩ | ⟨h1, h2, h3⟩
  · exact .inl h
  · exact .inr (.inl ⟨x, h1, h3⟩)
  · have hc := checkMark_eq_none.1 h2
    obtain ⟨-, h4⟩ := storing_next h3
    cases h4
    exact .inr (.inr ⟨h1, hc.1, hc.2.1, hc.2.2, rfl⟩)

theorem execPad_next {s t : State} (h : execPad s = .next t) :
    answers (encode .pad) s t
      (s.padded = false ∧ (s.hdrDone = true → (s.len.toNat : Int) - s.hlen.toNat = s.bodyLen.toNat) ∧
        padLen s.len.toNat ≤ s.capacity ∧
        t = { s with
              mb := Memory.writeList s.mb s.len.toNat (padTail s.len.toNat)
              plen := BitVec.ofNat 32 (padLen s.len.toNat)
              padded := true }) := by
  rcases command_next h with h | ⟨x, h1, -, h3⟩ | ⟨h1, h2, h3⟩
  · exact .inl h
  · exact .inr (.inl ⟨x, h1, h3⟩)
  · have hc := checkPad_eq_none.1 h2
    obtain ⟨-, h4⟩ := storing_next h3
    cases h4
    exact .inr (.inr ⟨h1, hc.1, hc.2.1, hc.2.2, rfl⟩)

theorem execSetnl_next {v : Word} {s t : State} (h : execSetnl v s = .next t) :
    answersNoFault s t (t = { s with nonce := s.nonce.extractLsb' 32 32 ++ v }) := by
  obtain h | ⟨h1, h2⟩ := command_next_unchecked h
  · exact .inl h
  · cases h2
    exact .inr ⟨h1, rfl⟩

theorem execSetnh_next {v : Word} {s t : State} (h : execSetnh v s = .next t) :
    answersNoFault s t (t = { s with nonce := v ++ s.nonce.extractLsb' 0 32 }) := by
  obtain h | ⟨h1, h2⟩ := command_next_unchecked h
  · exact .inl h
  · cases h2
    exact .inr ⟨h1, rfl⟩

theorem execSplice_next {s t : State} (h : execSplice s = .next t) :
    answers (encode .splice) s t
      (s.marked = true ∧ s.poff.toNat + 16 ≤ s.capacity ∧
        t = { s with mb := Memory.writeList s.mb s.poff.toNat (hex16 s.nonce) }) := by
  rcases command_next h with h | ⟨x, h1, -, h3⟩ | ⟨h1, h2, h3⟩
  · exact .inl h
  · exact .inr (.inl ⟨x, h1, h3⟩)
  · obtain ⟨h5, h4⟩ := storing_next h3
    cases h4
    exact .inr (.inr ⟨h1, checkSplice_eq_none.1 h2, by simpa using h5, rfl⟩)

theorem execStrip_next {s t : State} (h : execStrip s = .next t) :
    answers (encode .strip) s t
      (s.padded = true ∧ ∃ z, Memory.scanZero s.mb 0 s.len.toNat = .zeroAt z ∧ t = recordObject z s) := by
  rcases command_next h with h | ⟨x, h1, -, h3⟩ | ⟨h1, h2, h3⟩
  · exact .inl h
  · exact .inr (.inl ⟨x, h1, h3⟩)
  · have hc := checkStrip_eq_none.1 h2
    split at h3
    case h_1 z hz =>
      cases h3
      exact .inr (.inr ⟨h1, hc.1, z, hz, rfl⟩)
    case h_2 => cases h3
    case h_3 hz => exact absurd hz hc.2

theorem execPutc_next {c : Byte} {s t : State} (h : execPutc c s = .next t) :
    answers (encode (.putc c)) s t
      (s.tlock = false ∧ s.prec.toNat < 160 ∧ ∃ d, hexval c = some d ∧ t = recordDigit d s) := by
  rcases command_next h with h | ⟨x, h1, -, h3⟩ | ⟨h1, h2, h3⟩
  · exact .inl h
  · exact .inr (.inl ⟨x, h1, h3⟩)
  · obtain ⟨hc1, hc2, d, hd⟩ := checkPutc_eq_none.1 h2
    obtain ⟨h5, h4⟩ := withPrecision_next h3
    rw [hd] at h4
    cases h4
    exact .inr (.inr ⟨h1, hc1, by omega, d, hd, rfl⟩)

theorem execCmp_next {s t : State} (h : execCmp s = .next t) :
    answersNoFault s t
      (s.prec.toNat ≤ 160 ∧ t = recordMatch (prefixMatch s.digest s.target s.prec.toNat) s) := by
  obtain h | ⟨h1, h2⟩ := command_next_unchecked h
  · exact .inl h
  · obtain ⟨h5, h4⟩ := withPrecision_next h2
    cases h4
    exact .inr ⟨h1, h5, rfl⟩

theorem setDigestWord_next {w : CmdWord} {i : Nat} {v : Word} {s t : State} (h : setDigestWord w i v s = .next t) :
    answersNoFault s t (t = { s with digest := s.digest.set i v }) := by
  obtain h | ⟨h1, h2⟩ := command_next_unchecked h
  · exact .inl h
  · cases h2
    exact .inr ⟨h1, rfl⟩

theorem execSetd0_next {v : Word} {s t : State} (h : execSetd0 v s = .next t) :
    answersNoFault s t (t = { s with digest := s.digest.set 0 v }) := setDigestWord_next h

theorem execSetd1_next {v : Word} {s t : State} (h : execSetd1 v s = .next t) :
    answersNoFault s t (t = { s with digest := s.digest.set 1 v }) := setDigestWord_next h

theorem execSetd2_next {v : Word} {s t : State} (h : execSetd2 v s = .next t) :
    answersNoFault s t (t = { s with digest := s.digest.set 2 v }) := setDigestWord_next h

theorem execSetd3_next {v : Word} {s t : State} (h : execSetd3 v s = .next t) :
    answersNoFault s t (t = { s with digest := s.digest.set 3 v }) := setDigestWord_next h

theorem execSetd4_next {v : Word} {s t : State} (h : execSetd4 v s = .next t) :
    answersNoFault s t (t = { s with digest := s.digest.set 4 v }) := setDigestWord_next h

/-! ## The step -/

theorem step_idle {s : State} (h : s.port = []) : step s = .next s := by
  simp [step, h]

theorem step_reset {s : State} {rest : List HostEvent} (h : s.port = .reset :: rest) :
    step s = .next (resetEvent { s with port := rest }) := by
  simp [step, h]

theorem step_command {s : State} {w : CmdWord} {rest : List HostEvent} (h : s.port = .command w :: rest) :
    step s = execWord w { s with port := rest } := by
  simp [step, h]

theorem execWord_command {w : CmdWord} {i : Instr} {s : State} (h : s.err = none) (hd : decode w = .command i) :
    execWord w s = exec i s := by
  simp [execWord, (not_halted_iff s).2 h, hd]

theorem execWord_illegal {w : CmdWord} {why : Illegal} {s : State} (h : s.err = none) (hd : decode w = .illegal why) :
    execWord w s = .next (raise .illegalCommand w s) := by
  simp [execWord, illegalWord, (not_halted_iff s).2 h, hd, command_raises h]

theorem illegalWord_next {w : CmdWord} {s t : State} (h : illegalWord w s = .next t) :
    (s.err ≠ none ∧ t = s) ∨ (s.err = none ∧ t = raise .illegalCommand w s) := by
  rcases command_next h with h | ⟨x, h1, h2, h3⟩ | ⟨-, h2, -⟩
  · exact .inl h
  · cases h2
    exact .inr ⟨h1, h3⟩
  · cases h2

/-- Everything a command word can answer with a next state. -/
theorem execWord_next {w : CmdWord} {s t : State} (h : execWord w s = .next t) :
    (s.err ≠ none ∧ t = s) ∨ (s.err = none ∧ (∃ why, decode w = .illegal why) ∧ t = raise .illegalCommand w s) ∨
      (s.err = none ∧ ∃ i, decode w = .command i ∧ exec i s = .next t) := by
  unfold execWord at h
  split at h
  case isTrue hh =>
    cases h
    exact .inl ⟨(halted_iff _).1 hh, rfl⟩
  case isFalse hh =>
    have he : s.err = none := (not_halted_iff s).1 (by simpa using hh)
    split at h
    case h_1 i hi => exact .inr (.inr ⟨he, i, hi, h⟩)
    case h_2 why hw =>
      rcases illegalWord_next h with ⟨h1, -⟩ | ⟨-, h2⟩
      · exact absurd he h1
      · exact .inr (.inl ⟨he, ⟨why, hw⟩, h2⟩)

/-- Everything a step can answer with a next state. -/
theorem step_next {s t : State} (h : step s = .next t) :
    (s.port = [] ∧ t = s) ∨ (∃ rest, s.port = .reset :: rest ∧ t = resetEvent { s with port := rest }) ∨
      (∃ w rest, s.port = .command w :: rest ∧ execWord w { s with port := rest } = .next t) := by
  unfold step at h
  split at h
  case h_1 hp =>
    cases h
    exact .inl ⟨hp, rfl⟩
  case h_2 rest hp =>
    cases h
    exact .inr (.inl ⟨rest, hp, rfl⟩)
  case h_3 w rest hp => exact .inr (.inr ⟨w, rest, hp, h⟩)

end Sys2Proof.Machine
end

