-- ==== Sys2Proof/Laws/PerInstr.lean ====
section
/-! SUPPORT. The fields of an encoded command, and for every command: it is well-formed and its word lies in its own row of
the opcode map (spec 30_encoding.md rules R60, R61 and R63). -/

namespace Sys2Proof

/-! ## Fields of a word -/

@[simp] theorem opField_append (op : Byte) (imm : Word) : opField (op ++ imm) = op := BitVec.extractLsb'_append_eq_left

@[simp] theorem immField_append (op : Byte) (imm : Word) : immField (op ++ imm) = imm :=
  BitVec.extractLsb'_append_eq_right

/-- A word is its opcode followed by its operand field. -/
theorem word_eq_fields (w : CmdWord) : opField w ++ immField w = w := by
  unfold opField immField
  apply BitVec.eq_of_getLsbD_eq
  intro i hi
  erw [BitVec.getLsbD_append]
  split <;> simp_all
  intro h
  have := w.getLsbD_of_ge i
  omega

theorem append_and (op m : Byte) (imm k : Word) : (op ++ imm) &&& (m ++ k) = (op &&& m) ++ (imm &&& k) := by
  ext i hi
  simp only [BitVec.getElem_and, BitVec.getElem_append]
  split <;> simp

@[simp] theorem byteOf_setWidth (b : Byte) : byteOf (b.setWidth 32) = b := by
  revert b
  decide

@[simp] theorem aboveByte_setWidth (b : Byte) : aboveByte (b.setWidth 32) = 0 := by
  revert b
  decide

/-- An operand field whose upper 24 bits are 0 is its low byte. -/
theorem setWidth_byteOf {imm : Word} (h : aboveByte imm = 0) : (byteOf imm).setWidth 32 = imm := by
  have h' := congrArg BitVec.toNat h
  apply BitVec.eq_of_toNat_eq
  have := imm.isLt
  simp only [aboveByte, byteOf, BitVec.extractLsb'_toNat, BitVec.toNat_setWidth, Nat.shiftRight_eq_div_pow,
    BitVec.ofNat_eq_ofNat, BitVec.toNat_ofNat] at *
  omega

/-- The operand types leave nothing ill-formed: every command is well-formed (30_encoding.md rule R67). -/
theorem instr_wellFormed (i : Instr) : i.wellFormed = true := by
  cases i with
  | hdr v => simpa [Instr.wellFormed, Instr.source, Instr.mnemonic, Instr.operand, SourceLine.wellFormed, Mnemonic.format] using v.isLt
  | putb v => simpa [Instr.wellFormed, Instr.source, Instr.mnemonic, Instr.operand, SourceLine.wellFormed, Mnemonic.format] using v.isLt
  | mark => rfl
  | pad => rfl
  | setnl v => simpa [Instr.wellFormed, Instr.source, Instr.mnemonic, Instr.operand, SourceLine.wellFormed, Mnemonic.format] using v.isLt
  | setnh v => simpa [Instr.wellFormed, Instr.source, Instr.mnemonic, Instr.operand, SourceLine.wellFormed, Mnemonic.format] using v.isLt
  | splice => rfl
  | strip => rfl
  | putc v => simpa [Instr.wellFormed, Instr.source, Instr.mnemonic, Instr.operand, SourceLine.wellFormed, Mnemonic.format] using v.isLt
  | cmp => rfl
  | setd0 v => simpa [Instr.wellFormed, Instr.source, Instr.mnemonic, Instr.operand, SourceLine.wellFormed, Mnemonic.format] using v.isLt
  | setd1 v => simpa [Instr.wellFormed, Instr.source, Instr.mnemonic, Instr.operand, SourceLine.wellFormed, Mnemonic.format] using v.isLt
  | setd2 v => simpa [Instr.wellFormed, Instr.source, Instr.mnemonic, Instr.operand, SourceLine.wellFormed, Mnemonic.format] using v.isLt
  | setd3 v => simpa [Instr.wellFormed, Instr.source, Instr.mnemonic, Instr.operand, SourceLine.wellFormed, Mnemonic.format] using v.isLt
  | setd4 v => simpa [Instr.wellFormed, Instr.source, Instr.mnemonic, Instr.operand, SourceLine.wellFormed, Mnemonic.format] using v.isLt

/-! ## Every command's word lies in its own row -/

/-- The word of the command is selected by the row of its mnemonic (30_encoding.md rule R63). -/
def Laws.EncodesToRow.Statement (i : Instr) : Prop :=
  ∃ r ∈ opcodeMap, r.mnemonic = i.mnemonic ∧ r.selects (encode i) = true

/-- A format W row selects every operand. -/
theorem selects_word (op : Byte) (imm : Word) (m : Mnemonic) :
    (⟨m, op ++ (0 : Word), (0xFF : Byte) ++ (0 : Word)⟩ : OpcodeRow).selects (op ++ imm) = true := by
  simp only [OpcodeRow.selects, append_and]
  simp [show op &&& 255#8 = op from by simpa using BitVec.and_allOnes (x := op)]

/-- A format B row selects every byte operand. -/
theorem selects_byte (op b : Byte) (m : Mnemonic) :
    (⟨m, op ++ (0 : Word), (0xFF : Byte) ++ (0xFFFFFF00 : Word)⟩ : OpcodeRow).selects (op ++ b.setWidth 32) = true := by
  have hb : b.setWidth 32 &&& (0xFFFFFF00 : Word) = 0 := by
    revert b
    decide
  simp only [OpcodeRow.selects, append_and, hb]
  simp [show op &&& 255#8 = op from by simpa using BitVec.and_allOnes (x := op)]

namespace Laws.EncodesToRow

theorem hdr (n : Word) : Statement (.hdr n) :=
  ⟨_, by decide, rfl, selects_word 0x01 n .hdr⟩

theorem putb (b : Byte) : Statement (.putb b) :=
  ⟨_, by decide, rfl, selects_byte 0x02 b .putb⟩

theorem mark : Statement .mark := by
  refine ⟨⟨.mark, 0x0300000000#40, 0xFFFFFFFFFF#40⟩, ?_, rfl, ?_⟩ <;> decide

theorem pad : Statement .pad := by
  refine ⟨⟨.pad, 0x0400000000#40, 0xFFFFFFFFFF#40⟩, ?_, rfl, ?_⟩ <;> decide

theorem setnl (v : Word) : Statement (.setnl v) :=
  ⟨_, by decide, rfl, selects_word 0x10 v .setnl⟩

theorem setnh (v : Word) : Statement (.setnh v) :=
  ⟨_, by decide, rfl, selects_word 0x11 v .setnh⟩

theorem splice : Statement .splice := by
  refine ⟨⟨.splice, 0x1200000000#40, 0xFFFFFFFFFF#40⟩, ?_, rfl, ?_⟩ <;> decide

theorem strip : Statement .strip := by
  refine ⟨⟨.strip, 0x1300000000#40, 0xFFFFFFFFFF#40⟩, ?_, rfl, ?_⟩ <;> decide

theorem putc (c : Byte) : Statement (.putc c) :=
  ⟨_, by decide, rfl, selects_byte 0x20 c .putc⟩

theorem cmp : Statement .cmp := by
  refine ⟨⟨.cmp, 0x2100000000#40, 0xFFFFFFFFFF#40⟩, ?_, rfl, ?_⟩ <;> decide

theorem setd0 (v : Word) : Statement (.setd0 v) :=
  ⟨_, by decide, rfl, selects_word 0x28 v .setd0⟩

theorem setd1 (v : Word) : Statement (.setd1 v) :=
  ⟨_, by decide, rfl, selects_word 0x29 v .setd1⟩

theorem setd2 (v : Word) : Statement (.setd2 v) :=
  ⟨_, by decide, rfl, selects_word 0x2A v .setd2⟩

theorem setd3 (v : Word) : Statement (.setd3 v) :=
  ⟨_, by decide, rfl, selects_word 0x2B v .setd3⟩

theorem setd4 (v : Word) : Statement (.setd4 v) :=
  ⟨_, by decide, rfl, selects_word 0x2C v .setd4⟩

end Laws.EncodesToRow

end Sys2Proof
end

