-- ==== Sys2Proof/Tests/Slice0.lean ====
section
/-! SUPPORT. Tests of single commands against the spec's examples and vectors (95_test_vectors.md), and a witness for the
hypotheses of every obligation. Every expected value is the spec's. -/

namespace Sys2Proof.Tests

open Sys2Proof Sys2Proof.Machine

/-! ## Small states -/

/-- After reset, with `MSG_CAP = 64`. -/
def tiny : State := resetFor 0

/-- The bytes `bs` appended to an empty buffer of capacity 64. -/
def holding (bs : List Byte) : State :=
  { tiny with mb := Memory.writeList [] 0 bs, len := BitVec.ofNat 32 bs.length }

/-- The bytes `bs` padded, in a buffer of capacity 64. -/
def paddedWith (bs : List Byte) : State :=
  { tiny with mb := Memory.writeList [] 0 (Machine.pad bs), len := BitVec.ofNat 32 bs.length, plen := 64, padded := true }

/-- The data bytes of program P2 after its PAD: header, 'A', ' ', sixteen sentinel bytes, a line feed. -/
def framedData : List Byte :=
  [0x63, 0x6F, 0x6D, 0x6D, 0x69, 0x74, 0x20, 0x31, 0x39, 0x00, 0x41, 0x20, 0x46, 0x46, 0x46, 0x46, 0x46, 0x46, 0x46, 0x46,
    0x46, 0x46, 0x46, 0x46, 0x46, 0x46, 0x46, 0x46, 0x0A]

/-- Program P2 after its sixth word. -/
def framed : State :=
  { paddedWith framedData with hdrDone := true, hlen := 10, bodyLen := 19, marked := true, poff := 12 }

/-- A state with a Target of four hexadecimal digits, the digest and nonce of the example of rule R101. -/
def searching : State :=
  { tiny with target := ⟨0xCAFE0000, 0, 0, 0, 0⟩, prec := 16, digest := ⟨0xCAFE1234, 0, 0, 0, 0⟩, nonce := 0x2A }

/-- A state with all 40 digits of the Target entered (V-T8). -/
def entered : State :=
  { tiny with target := ⟨0x01234567, 0x89ABCDEF, 0x01234567, 0x89ABCDEF, 0x01234567⟩, prec := 160 }

/-- A state that a fault halted (V-E1). -/
def stopped : State := { tiny with err := some .illegalCommand, ecmd := 0 }

/-- Part of the next state, or none where the answer is none. -/
def seen {α : Type} (r : Result) (f : State → α) : Option α :=
  match r with
  | .next t => some (f t)
  | .fault _ => none
  | .refused _ => none

/-- The answer is a next state. -/
def completes (r : Result) : Bool :=
  match r with
  | .next _ => true
  | .fault _ => false
  | .refused _ => false

/-- A small answer that completes has its next state. -/
theorem completes_next {r : Result} (h : completes r = true) : ∃ t, r = .next t := by
  cases r with
  | next t => exact ⟨t, rfl⟩
  | fault f => cases h
  | refused f => cases h

/-! ## Well-formed source lines (30_encoding.md rules R61 and R67), one ill-formed line for each check -/

theorem test_wellFormed_lines : (⟨.mark, none⟩ : SourceLine).wellFormed = true ∧
    (⟨.putb, some 255⟩ : SourceLine).wellFormed = true ∧ (⟨.hdr, some 4294967295⟩ : SourceLine).wellFormed = true := by decide

theorem test_illFormed_operand_of_mark : (⟨.mark, some 0⟩ : SourceLine).wellFormed = false := by decide
theorem test_illFormed_putb_without_operand : (⟨.putb, none⟩ : SourceLine).wellFormed = false := by decide
theorem test_illFormed_putc_256 : (⟨.putc, some 256⟩ : SourceLine).wellFormed = false := by decide
theorem test_illFormed_hdr_without_operand : (⟨.hdr, none⟩ : SourceLine).wellFormed = false := by decide
theorem test_illFormed_setnl_2_32 : (⟨.setnl, some 4294967296⟩ : SourceLine).wellFormed = false := by decide

/-! ## Decoding (30_encoding.md rules R60 to R66): one word of every constructor, written out from its encoding, as the
table numbers it; and the illegal words V-E1 to V-E12 -/

theorem test_decode_hdr : decodeTableWord 40 0x01FFFFFFFF = some (.hdr 4294967295) := by decide
theorem test_decode_putb : decodeTableWord 40 0x02000000FF = some (.putb 0xFF) := by decide
theorem test_decode_mark : decodeTableWord 40 0x0300000000 = some .mark := by decide
theorem test_decode_pad : decodeTableWord 40 0x0400000000 = some .pad := by decide
theorem test_decode_setnl : decodeTableWord 40 0x1089ABCDEF = some (.setnl 0x89ABCDEF) := by decide
theorem test_decode_setnh : decodeTableWord 40 0x1101234567 = some (.setnh 0x01234567) := by decide
theorem test_decode_splice : decodeTableWord 40 0x1200000000 = some .splice := by decide
theorem test_decode_strip : decodeTableWord 40 0x1300000000 = some .strip := by decide
theorem test_decode_putc : decodeTableWord 40 0x2000000063 = some (.putc 0x63) := by decide
theorem test_decode_cmp : decodeTableWord 40 0x2100000000 = some .cmp := by decide
theorem test_decode_setd0 : decodeTableWord 40 0x28A9993E36 = some (.setd0 0xA9993E36) := by decide
theorem test_decode_setd1 : decodeTableWord 40 0x294706816A = some (.setd1 0x4706816A) := by decide
theorem test_decode_setd2 : decodeTableWord 40 0x2ABA3E2571 = some (.setd2 0xBA3E2571) := by decide
theorem test_decode_setd3 : decodeTableWord 40 0x2B7850C26C = some (.setd3 0x7850C26C) := by decide
theorem test_decode_setd4 : decodeTableWord 40 0x2C9CD0D89D = some (.setd4 0x9CD0D89D) := by decide

theorem test_decode_illegal :
    [0x0000000000, 0xFFFFFFFFFF, 0x0500000000, 0x1400000000, 0x2D00000000, 0x0300000001, 0x0400000080, 0x1280000000,
      0x1300000100, 0x2100000001, 0x0200000100, 0x2000000161].map (decodeTableWord 40) = List.replicate 12 none := by decide

theorem test_encode_putb : encode (.putb 0x61) = 0x0200000061 := by decide
theorem test_encode_setd4 : encode (.setd4 0x9CD0D89D) = 0x2C9CD0D89D := by decide

/-! ## The assembler's lines (30_encoding.md rule R67), as bytes -/

/-- `PUTB '\n' ; c` -/
theorem test_assemble_escape :
    assembleLine [0x50, 0x55, 0x54, 0x42, 0x20, 0x27, 0x5C, 0x6E, 0x27, 0x20, 0x3B, 0x20, 0x63] = some [.putb 0x0A] := by
  decide

/-- `HDR 0x13` -/
theorem test_assemble_hexadecimal :
    assembleLine [0x48, 0x44, 0x52, 0x20, 0x30, 0x78, 0x31, 0x33] = some [.hdr 19] := by decide

/-- `PUTB 256` is an assembly error. -/
theorem test_assemble_out_of_range :
    assembleLine [0x50, 0x55, 0x54, 0x42, 0x20, 0x32, 0x35, 0x36] = none := by decide

/-- `PUTS "a\0"` -/
theorem test_assemble_puts :
    assembleLine [0x50, 0x55, 0x54, 0x53, 0x20, 0x22, 0x61, 0x5C, 0x30, 0x22] = some [.putb 0x61, .putb 0x00] := by decide

/-- `SETN 0x1000000FF` (the nonce of V-N6) -/
theorem test_assemble_setn :
    assembleLine [0x53, 0x45, 0x54, 0x4E, 0x20, 0x30, 0x78, 0x31, 0x30, 0x30, 0x30, 0x30, 0x30, 0x30, 0x46, 0x46] =
      some [.setnh 1, .setnl 0xFF] := by decide

/-- `DIGEST 1, 2, 3, 4, 5` -/
theorem test_assemble_digest :
    assembleLine [0x44, 0x49, 0x47, 0x45, 0x53, 0x54, 0x20, 0x31, 0x2C, 0x20, 0x32, 0x2C, 0x20, 0x33, 0x2C, 0x20, 0x34, 0x2C,
      0x20, 0x35] = some [.setd0 1, .setd1 2, .setd2 3, .setd3 4, .setd4 5] := by decide

/-! ## Single commands -/

/-- V-H4 -/
theorem test_hdr_writes_header :
    seen (exec (.hdr 19) tiny) (fun t => (Memory.readList t.mb 0 10, t.len, t.hlen, t.bodyLen, t.status)) =
      some (some [0x63, 0x6F, 0x6D, 0x6D, 0x69, 0x74, 0x20, 0x31, 0x39, 0x00], 10, 10, 19, 0x10) := by decide

/-- V-Q1 -/
theorem test_hdr_after_data : seen (exec (.hdr 1) (holding [1])) (fun t => (t.status, t.ecmd, t.len)) =
    some (0x002, 0x0100000001, 1) := by decide

/-- V-E16 -/
theorem test_putb_appends : seen (exec (.putb 0xFF) tiny) (fun t => (t.byte 0, t.len, t.status)) = some (some 0xFF, 1, 0) := by
  decide

/-- V-O2 -/
theorem test_putb_overflows : seen (exec (.putb 2) { tiny with len := 64 }) (fun t => (t.errCode, t.ecmd, t.len)) =
    some (4, 0x0200000002, 64) := by decide

/-- V-K1 -/
theorem test_mark_reserves :
    seen (exec .mark tiny) (fun t => (Memory.readList t.mb 0 16, t.poff, t.len, t.status)) =
      some (some (List.replicate 16 0x46), 0, 16, 0x20) := by decide

/-- V-K4 -/
theorem test_mark_overflows : seen (exec .mark { tiny with len := 49 }) (fun t => (t.errCode, t.ecmd, t.len, t.marked)) =
    some (4, 0x0300000000, 49, false) := by decide

/-- P1 -/
theorem test_pad_abc :
    seen (exec .pad (holding [0x61, 0x62, 0x63])) (fun t => (Memory.readList t.mb 0 64, t.len, t.plen, t.status)) =
      some (some ([0x61, 0x62, 0x63, 0x80] ++ List.replicate 52 0 ++ [0, 0, 0, 0, 0, 0, 0, 0x18]), 3, 64, 0x40) := by decide

/-- V-O1 -/
theorem test_pad_overflows : seen (exec .pad { tiny with len := 56 }) (fun t => (t.status, t.ecmd, t.plen, t.byte 56)) =
    some (0x004, 0x0400000000, 0, none) := by decide

/-- The example of rule R120. -/
theorem test_setnl : seen (exec (.setnl 0x89ABCDEF) { tiny with nonce := 0x0123456700000000 }) (fun t => t.nonce) =
    some 0x0123456789ABCDEF := by decide

/-- The example of rule R121. -/
theorem test_setnh : seen (exec (.setnh 0x01234567) tiny) (fun t => t.nonce) = some 0x0123456700000000 := by decide

/-- The example of rule R122, on the buffer of P2. -/
theorem test_splice :
    seen (exec .splice { framed with nonce := 0x0123456789ABCDEF }) (fun t => (Memory.readList t.mb 11 18, t.status)) =
      some (some [0x20, 0x30, 0x31, 0x32, 0x33, 0x34, 0x35, 0x36, 0x37, 0x38, 0x39, 0x41, 0x42, 0x43, 0x44, 0x45, 0x46, 0x0A],
        0x070) := by decide

/-- V-N11 -/
theorem test_splice_without_mark : seen (exec .splice tiny) (fun t => (t.status, t.ecmd)) = some (0x002, 0x1200000000) := by
  decide

/-- The example of rule R123, on the buffer of P2. -/
theorem test_strip : seen (exec .strip framed) (fun t => (t.objOff, t.objLen, t.status)) = some (10, 19, 0x0F0) := by decide

/-- V-S3: the zero bytes of the padding are not scanned. -/
theorem test_strip_no_terminator :
    seen (exec .strip (paddedWith [0x61, 0x62, 0x63])) (fun t => (t.status, t.ecmd, t.objOff)) =
      some (0x046, 0x1300000000, 0) := by decide

/-- The second character of the example of rule R91. -/
theorem test_putc : seen (exec (.putc 0x41) { tiny with target := ⟨0xC0000000, 0, 0, 0, 0⟩, prec := 4 })
    (fun t => (t.target, t.prec)) = some (⟨0xCA000000, 0, 0, 0, 0⟩, 8) := by decide

/-- V-T12: a 41st character. -/
theorem test_putc_41st : seen (exec (.putc 0x38) entered) (fun t => (t.status, t.ecmd, t.prec)) =
    some (0x003, 0x2000000038, 160) := by decide

/-- The example of rule R101. -/
theorem test_cmp_match : seen (exec .cmp searching) (fun t => (t.status, t.result)) = some (0x700, 0x2A) := by decide

/-- The example of rule R101 with the other digest, after an earlier match. -/
theorem test_cmp_no_match :
    seen (exec .cmp { searching with digest := ⟨0xCAFF0000, 0, 0, 0, 0⟩, matched := true, rvalid := true, result := 7 })
      (fun t => (t.matched, t.tlock, t.rvalid, t.result)) = some (false, true, true, 7) := by decide

/-- The examples of rules R96 to R100. -/
theorem test_setd0 : seen (exec (.setd0 0xA9993E36) tiny) (fun t => t.digest) = some ⟨0xA9993E36, 0, 0, 0, 0⟩ := by decide
theorem test_setd1 : seen (exec (.setd1 0x4706816A) tiny) (fun t => t.digest) = some ⟨0, 0x4706816A, 0, 0, 0⟩ := by decide
theorem test_setd2 : seen (exec (.setd2 0xBA3E2571) tiny) (fun t => t.digest) = some ⟨0, 0, 0xBA3E2571, 0, 0⟩ := by decide
theorem test_setd3 : seen (exec (.setd3 0x7850C26C) tiny) (fun t => t.digest) = some ⟨0, 0, 0, 0x7850C26C, 0⟩ := by decide
theorem test_setd4 : seen (exec (.setd4 0x9CD0D89D) tiny) (fun t => t.digest) = some ⟨0, 0, 0, 0, 0x9CD0D89D⟩ := by decide

/-! ## Functions, on the examples of their rules -/

/-- V-M10 and V-M11 -/
theorem test_prefixMatch_inside_word :
    prefixMatch ⟨0xCAFEBABE, 0x1FFFFFFF, 0xFFFFFFFF, 0xFFFFFFFF, 0xFFFFFFFF⟩ ⟨0xCAFEBABE, 0x10000000, 0, 0, 0⟩ 36 = true ∧
      prefixMatch ⟨0xCAFEBABE, 0x20000000, 0, 0, 0⟩ ⟨0xCAFEBABE, 0x10000000, 0, 0, 0⟩ 36 = false := by decide

/-- V-T5 -/
theorem test_targetEncode : targetEncode [0x44, 0x65, 0x61, 0x64, 0x42, 0x65, 0x65] = some (⟨0xDEADBEE0, 0, 0, 0, 0⟩, 28) := by
  decide

/-! ## The step -/

/-- V-E6: an illegal word, from reset. -/
theorem test_step_illegal : seen (step (State.reset.withFetchWord 40 0x0300000001)) (fun t => (t.status, t.ecmd, t.len)) =
    some (0x001, 0x0300000001, 0) := by decide

/-- The example of rule R82, from reset. -/
theorem test_step_runs_word : seen (step (State.reset.withFetchWord 40 0x0200000061)) (fun t => (t.byte 0, t.len)) =
    some (some 0x61, 1) := by decide

/-- V-O3: a word presented to a halted FMU is discarded. -/
theorem test_step_halted : seen (step (stopped.withFetchWord 40 0x0200000065)) (fun t => (t.status, t.len, t.port)) =
    some (0x001, 0, []) := by decide

/-- V-R1: reset while halted. -/
theorem test_step_reset : seen (step { stopped with port := [.reset], mb := [(0, 0x63)], len := 1 })
    (fun t => (t.status, t.vext, t.bufRead 0)) = some (0, 0, none) := by decide

/-! ## Witnesses: for each obligation with hypotheses, a concrete input that meets them, each clause at a boundary -/

theorem witness_EncodeDecodeRoundTrip : decode 0x20000000FF = .command (.putc 0xFF) := by decide

theorem witness_OpcodeMapSelectsCommands :
    ∃ r ∈ opcodeMap, r.mnemonic = .putb ∧ (0x02000000FF : CmdWord) &&& r.mask = r.pattern := by decide

theorem witness_IllegalWordRaises_opcode : isIllegal 0x2D00000000 ∧ tiny.err = none := by
  unfold isIllegal
  decide

theorem witness_IllegalWordRaises_no_operand : isIllegal 0x1280000000 := by
  unfold isIllegal
  decide

theorem witness_IllegalWordRaises_byte_operand : isIllegal 0x0200000100 := by
  unfold isIllegal
  decide

theorem witness_StepRunsDecodedCommand : (tiny.withFetchWord 40 0x0400000000).port = .command 0x0400000000 :: [] ∧
    decode 0x0400000000 = .command .pad ∧ tiny.port = [] ∧
    ({ framed with port := [.reset] } : State).port = .reset :: [] := by decide

/-- The 40 characters of V-T8. -/
def forty : List Byte :=
  [0x30, 0x31, 0x32, 0x33, 0x34, 0x35, 0x36, 0x37, 0x38, 0x39, 0x61, 0x62, 0x63, 0x64, 0x65, 0x66, 0x30, 0x31, 0x32, 0x33,
    0x34, 0x35, 0x36, 0x37, 0x38, 0x39, 0x61, 0x62, 0x63, 0x64, 0x65, 0x66, 0x30, 0x31, 0x32, 0x33, 0x34, 0x35, 0x36, 0x37]

theorem witness_PseudoInstructionsExpand : forty.length = 40 ∧
    targetEncode forty = some (⟨0x01234567, 0x89ABCDEF, 0x01234567, 0x89ABCDEF, 0x01234567⟩, 160) := by decide

/-- V-T14 and V-T15: the characters at the ends of the three ranges, and their neighbours. -/
theorem witness_HexvalTable :
    [0x30, 0x39, 0x41, 0x46, 0x61, 0x66].map hexval = [some 0, some 9, some 0xA, some 0xF, some 0xA, some 0xF] ∧
      [0x2F, 0x3A, 0x40, 0x47, 0x60, 0x67, 0x00, 0x20, 0xFF].map hexval = List.replicate 9 none := by decide

theorem witness_UppercaseHexDigit : [0, 9, 10, 15].map hexU = [0x30, 0x39, 0x41, 0x46] := by decide

/-- V-N8: the first and the last character. -/
theorem witness_NonceAsSixteenCharacters : (hex16 0xFEDCBA9876543210)[0]? = some 0x46 ∧
    (hex16 0xFEDCBA9876543210)[15]? = some 0x30 := by decide

/-- V-H2, V-H3 and V-H11: one digit, two digits, ten digits. -/
theorem witness_DecimalNumeral : dec 9 = [0x39] ∧ dec 10 = [0x31, 0x30] ∧ (dec 4294967295).length = 10 := by decide

/-- V-P5 and V-P6; 128 is a multiple of 64 that holds 56 bytes and nine more. -/
theorem witness_PaddedLength : 55 % 64 ≤ 55 ∧ padLen 55 = 64 ∧ 56 % 64 > 55 ∧ padLen 56 = 128 ∧ 128 % 64 = 0 ∧ 56 + 9 ≤ 128 := by
  decide

/-- P1: the last data byte, the mark, the first and the last zero byte, the last byte of the length. -/
theorem witness_PaddedMessageBytes : [2, 3, 4, 55, 63].map (fun a => (Machine.pad [0x61, 0x62, 0x63])[a]?) =
    [some 0x63, some 0x80, some 0x00, some 0x00, some 0x18] := by decide

theorem witness_BigEndianEightBytes : be64 (2 ^ 64 - 1) = List.replicate 8 0xFF ∧ (be64 1600)[7]? = some 0x40 := by decide

/-- V-T8 is accepted, one more character is not, and neither is "0x". -/
theorem witness_TargetEncodeDigits : forty.length ≤ 40 ∧ (∀ c ∈ forty, hexval c ≠ none) ∧ forty[39]? = some 0x37 ∧
    (forty ++ [0x38]).length > 40 ∧ (∃ c ∈ [0x30, 0x78], hexval c = none) := by decide

/-- The digest of V-M19: its last byte and its last character. -/
theorem witness_FiveWordsAsNumber :
    (w160 ⟨0xA9993E36, 0x4706816A, 0xBA3E2571, 0x7850C26C, 0x9CD0D89D⟩).extractLsb' (152 - 8 * 19) 8 = 0x9D ∧
      (hexString ⟨0xA9993E36, 0x4706816A, 0xBA3E2571, 0x7850C26C, 0x9CD0D89D⟩)[39]? = some 0x64 := by decide

/-- V-M14 and V-M15: all 160 bits. -/
theorem witness_MatchComparesTopBits : prefixMatch entered.target entered.target 160 = true ∧
    prefixMatch { entered.target with w4 := 0x01234566 } entered.target 160 = false := by decide

/-- A precision that ends inside word 1, one that ends a word, and 160; the Target's ignored bits are 0. -/
theorem witness_MatchWordByWord : 0 < 36 % 32 ∧ 36 ≤ 160 ∧ ¬ 0 < 32 % 32 ∧ 160 / 32 = 5 ∧
    (w160 ⟨0xCAFEBABE, 0x10000000, 0, 0, 0⟩).toNat % 2 ^ (160 - 36) = 0 := by decide

/-- V-M19; and the CMP of rule R101's example fills the slot. -/
theorem witness_MatchIsStringPrefix :
    targetEncode [0x61, 0x39, 0x39, 0x39, 0x33, 0x65, 0x33, 0x36, 0x34, 0x37, 0x30] =
        some (⟨0xA9993E36, 0x47000000, 0, 0, 0⟩, 44) ∧
      searching.rvalid = false ∧ seen (exec .cmp searching) (fun t => t.rvalid) = some true := by decide

theorem witness_CommitHeaderBytes : (commitHeader 10)[9]? = some 0x00 ∧ 9 + 1 = (commitHeader 10).length := by decide

theorem witness_HdrWritesHeader : tiny.err = none ∧ tiny.padded = false ∧ tiny.len = 0 ∧ (holding [1]).err = none ∧
    (holding [1]).len ≠ 0 ∧ (paddedWith []).err = none ∧ (paddedWith []).padded = true := by decide

theorem witness_PutbAppendsByte :
    ({ tiny with len := 63 } : State).err = none ∧ ({ tiny with len := 63 } : State).padded = false ∧
      ({ tiny with len := 63 } : State).len.toNat < ({ tiny with len := 63 } : State).capacity ∧
      ({ tiny with len := 64 } : State).len.toNat = ({ tiny with len := 64 } : State).capacity ∧
      (paddedWith []).padded = true := by decide

/-- V-K3 and V-K4: 48 bytes leave room for the placeholder, 49 do not. -/
theorem witness_MarkReservesPlaceholder :
    ({ tiny with len := 48 } : State).len.toNat + 16 ≤ ({ tiny with len := 48 } : State).capacity ∧
      ({ tiny with len := 49 } : State).len.toNat + 16 > ({ tiny with len := 49 } : State).capacity ∧
      tiny.padded = false ∧ tiny.marked = false ∧ framed.marked = true ∧ (paddedWith []).padded = true ∧ framed.err = none := by
  decide

/-- The state of P2 before its PAD. -/
def framedUnpadded : State :=
  { holding framedData with hdrDone := true, hlen := 10, bodyLen := 19, marked := true, poff := 12 }

/-- A header whose length is right, one whose length is wrong (V-O3), 55 and 56 bytes in 64. -/
theorem witness_PadWritesPadding : framedUnpadded.err = none ∧ framedUnpadded.padded = false ∧ framedUnpadded.hdrDone = true ∧
    (framedUnpadded.len.toNat : Int) - framedUnpadded.hlen.toNat = framedUnpadded.bodyLen.toNat ∧
    padLen framedUnpadded.len.toNat ≤ framedUnpadded.capacity ∧
    (framedUnpadded.len.toNat : Int) - framedUnpadded.hlen.toNat ≠
      ({ framedUnpadded with bodyLen := 5 } : State).bodyLen.toNat ∧
    padLen ({ tiny with len := 55 } : State).len.toNat ≤ tiny.capacity ∧
    padLen ({ tiny with len := 56 } : State).len.toNat > tiny.capacity ∧ framed.padded = true := by decide

theorem witness_NonceHalvesWritten : ({ tiny with nonce := 0x0123456700000000 } : State).err = none := by decide

theorem witness_SpliceWritesNonce : framed.err = none ∧ framed.marked = true ∧ framed.poff.toNat + 16 ≤ framed.capacity ∧
    ({ tiny with marked := true, poff := 48 } : State).poff.toNat + 16 ≤ tiny.capacity ∧ tiny.marked = false := by decide

/-- V-S2: the first byte of the data ends them; V-S3 has no terminator. -/
theorem witness_StripLocatesObject : (paddedWith [0]).err = none ∧ (paddedWith [0]).padded = true ∧
    0 < (paddedWith [0]).len.toNat ∧ (paddedWith [0]).byte 0 = some 0 ∧ framed.byte 9 = some 0 ∧
    (∀ a, a < 9 → ∃ b, framed.byte a = some b ∧ b ≠ 0) ∧ framed.hdrDone = true ∧ tiny.padded = false := by decide

theorem witness_StripLocatesObject_no_terminator : noTerminatorCondition (paddedWith [0x61, 0x62, 0x63]) := by
  unfold noTerminatorCondition
  decide

/-- The 40th character is accepted, a 41st and 'x' are not; a locked Target takes none. -/
theorem witness_PutcEntersDigit :
    ({ tiny with prec := 156 } : State).err = none ∧ ({ tiny with prec := 156 } : State).tlock = false ∧
      ({ tiny with prec := 156 } : State).prec.toNat < 160 ∧ hexval 0x66 = some 0xF ∧ entered.prec = 160 ∧
      hexval 0x78 = none ∧ ({ tiny with tlock := true } : State).tlock = true := by decide

theorem witness_CmpRecordsMatch : searching.err = none ∧ searching.prec.toNat ≤ 160 ∧ entered.prec.toNat ≤ 160 ∧
    prefixMatch searching.digest searching.target searching.prec.toNat = true ∧ searching.rvalid = false ∧
    ({ searching with rvalid := true } : State).rvalid = true ∧
    prefixMatch entered.digest entered.target entered.prec.toNat = false := by decide

theorem witness_DigestWordsWritten : searching.err = none := by decide

/-- P2 before its PAD, which a SPLICE may follow. -/
theorem witness_PadLaws : framedUnpadded.err = none ∧ framedUnpadded.padded = false ∧
    (framedUnpadded.hdrDone = true →
      (framedUnpadded.len.toNat : Int) - framedUnpadded.hlen.toNat = framedUnpadded.bodyLen.toNat) ∧
    padLen framedUnpadded.len.toNat ≤ framedUnpadded.capacity ∧ framedUnpadded.marked = true ∧
    framedUnpadded.poff.toNat + 16 ≤ framedUnpadded.len.toNat ∧ completes (exec .splice framed) = true := by decide

theorem witness_PadLeavesPaddedMessage :
    Memory.readList framedUnpadded.mb 0 framedUnpadded.len.toNat = some framedData ∧
      padLen framedUnpadded.len.toNat ≤ framedUnpadded.capacity := by decide

theorem witness_FrameNonceAndDigest : completes (exec (.setnl 1) tiny) = true ∧ completes (exec (.setnh 1) tiny) = true ∧
    completes (exec (.setd0 1) tiny) = true ∧ completes (exec (.setd1 1) tiny) = true ∧
    completes (exec (.setd2 1) tiny) = true ∧ completes (exec (.setd3 1) tiny) = true ∧
    completes (exec (.setd4 1) stopped) = true := by decide

/-- An effect, a fault and a discard of each command. -/
theorem witness_FrameTargetMatchAndStrip : completes (exec (.putc 0x61) tiny) = true ∧
    completes (exec (.putc 0x61) entered) = true ∧ completes (exec .cmp searching) = true ∧
    completes (exec .strip framed) = true ∧ completes (exec .strip tiny) = true ∧ completes (exec .cmp stopped) = true := by
  decide

theorem witness_FrameAppendingCommands : completes (exec (.hdr 19) tiny) = true ∧ completes (exec (.hdr 19) framed) = true ∧
    completes (exec (.putb 1) tiny) = true ∧ completes (exec (.putb 1) framed) = true ∧ completes (exec .mark tiny) = true ∧
    completes (exec .mark framed) = true := by decide

theorem witness_FramePadAndSplice : completes (exec .pad framedUnpadded) = true ∧ completes (exec .pad framed) = true ∧
    completes (exec .splice framed) = true ∧ completes (exec .splice tiny) = true := by decide

/-- Over another buffer PAD leaves address 0 as it was and stores 0x80 behind the data, as it does over this one. -/
theorem witness_OnlyStripReadsBuffer : Instr.pad ≠ .strip ∧
    seen (exec .pad framedUnpadded) (fun t => (t.byte 0, t.byte framedUnpadded.len.toNat)) =
      some (some 0x63, some 0x80) ∧
    seen (exec .pad { framedUnpadded with mb := [(0, 7)] }) (fun t => (t.byte 0, t.byte framedUnpadded.len.toNat)) =
      some (some 7, some 0x80) := by decide

/-- V-Q10 and a command that raises no Sequence. -/
theorem witness_SequenceConditions : sequenceCondition (.putc 0x61) { tiny with tlock := true } ∧
    ¬ sequenceCondition .cmp tiny ∧ tiny.err = none := by
  unfold sequenceCondition
  decide

/-- PAD of 56 bytes whose header announces another length: LengthMismatch and Overflow apply, LengthMismatch first. -/
theorem witness_FirstCauseIsRaised :
    firstCause .lengthMismatch 0x0400000000 { tiny with len := 56, hdrDone := true, hlen := 9, bodyLen := 5 } := by
  refine ⟨[.illegalCommand, .sequence, .invalidPrefix], [.overflow, .noTerminator], rfl, ?_, ?_⟩
  · show _ ∧ _
    decide
  · intro y hy
    rcases List.mem_cons.1 hy with rfl | hy
    · exact id
    rcases List.mem_cons.1 hy with rfl | hy
    · show ¬ _ = _
      decide
    rcases List.mem_cons.1 hy with rfl | hy
    · exact id
    · cases hy

/-- No cause applies to a CMP; a halted FMU raises nothing. -/
theorem witness_FirstCauseIsRaised_none : (∀ x, ¬ causeApplies x 0x2100000000 tiny) ∧ tiny.err = none ∧ stopped.err ≠ none ∧
    completes (execWord 0x2100000000 tiny) = true := by
  refine ⟨fun x => ?_, by decide⟩
  cases x <;> exact id

/-- V-Q8 -/
theorem witness_FaultsArePrecise : seen (execWord 0x1200000000 tiny) (fun t => t.err) = some (some .sequence) ∧
    (some Cause.sequence) ≠ tiny.err := by decide

theorem witness_HaltedUntilReset : stopped.err ≠ none := by decide

/-- States outside the invariants in which the model stops. -/
theorem witness_StopsOutsideInvariants :
    ({ tiny with len := 65 } : State).len.toNat > tiny.capacity ∧ tiny.err = none ∧ tiny.padded = false ∧
      ({ tiny with marked := true, poff := 49 } : State).poff.toNat + 16 > tiny.capacity ∧
      ({ paddedWith [0x61] with mb := [], len := 1 } : State).byte 0 = none ∧
      ({ tiny with prec := 164 } : State).prec.toNat > 160 ∧ tiny.tlock = false ∧ hexval 0x61 ≠ none := by decide

theorem witness_ResetEventIsTotal :
    completes (execWord 0x0400000000 framed) = true ∧ framed.padded = true ∧ framed.marked = true ∧ framed.hdrDone = true ∧
    stopped.err ≠ none ∧ ({ tiny with stripped := true } : State).stripped = true ∧
    ({ tiny with tlock := true, rvalid := true } : State).rvalid = true := by decide

theorem witness_RegReadMap : 25 ≤ (25 : BitVec 8).toNat ∧ 25 ≤ (255 : BitVec 8).toNat := by decide

/-- A state of a run that is not the one after reset meets the invariants: program P2 after its PAD. -/
theorem framed_inv : Inv framed where
  canonical := by decide
  written := by decide
  noOther := by decide
  extent := by decide
  noHeader := by decide
  header := by decide
  noPlaceholder := by decide
  placeholder := by decide
  notPadded := by decide
  isPadded := by decide
  notStripped := by decide
  isStripped := by decide
  precision := by decide
  resultSlot := by decide
  faultRecord := by decide

/-- The last address below the extent of P2 and the first at it. -/
theorem witness_BufReadWithinExtent : Inv framed ∧ framed.padded = true ∧ tiny.padded = false ∧
    (63 : Word).toNat < framed.vext ∧ framed.vext ≤ (64 : Word).toNat := by
  refine ⟨framed_inv, ?_⟩
  decide

theorem witness_MessageBlocksCoverMessage : Inv framed ∧ framed.padded = true ∧ 0 < framed.messageBlocks ∧
    tiny.padded = false := by
  refine ⟨framed_inv, ?_⟩
  decide

theorem witness_EveryStepKeepsInvariants : Inv { framed with port := [.command 0x1300000000] } ∧
    completes (step { framed with port := [.command 0x1300000000] }) = true ∧
    completes (execWord 0x1300000000 framed) = true := by
  refine ⟨?_, by decide⟩
  obtain ⟨h1, h2, h3, h4, h5, h6, h7, h8, h9, h10, h11, h12, h13, h14, h15⟩ := framed_inv
  exact ⟨h1, h2, h3, h4, h5, h6, h7, h8, h9, h10, h11, h12, h13, h14, h15⟩

theorem witness_EveryEventHasNextState : Inv framed := framed_inv

theorem witness_CapacityIsConstant : completes (step (tiny.withFetchWord 40 0x0100000013)) = true := by decide

/-- With a placeholder, and without one. -/
theorem witness_DataFrozenAfterPad : framed.padded = true ∧ framed.marked = true ∧
    completes (execWord 0x1200000000 framed) = true ∧
    completes (execWord 0x1200000000 { framed with marked := false, poff := 0 }) = true := by decide

theorem witness_TargetFrozenAfterCmp : completes (execWord 0x2100000000 searching) = true ∧ searching.err = none ∧
    decode 0x2100000000 = .command .cmp ∧ searching.tlock = false ∧
    seen (execWord 0x2100000000 searching) (fun t => t.tlock) = some true ∧
    completes (execWord 0x2000000061 { searching with tlock := true }) = true := by decide

theorem witness_ResultSlotWrittenOnce : completes (execWord 0x2100000000 searching) = true ∧ searching.rvalid = false ∧
    seen (execWord 0x2100000000 searching) (fun t => t.rvalid) = some true ∧
    completes (execWord 0x2100000000 { searching with rvalid := true, result := 7 }) = true ∧ Inv framed ∧
    framed.rvalid = false :=
  ⟨by decide, by decide, by decide, by decide, framed_inv, by decide⟩

/-- V-T13: "0x12" is invalid at its second character; rule R90: 41 characters are invalid, 40 are not; V-T5 is valid. -/
theorem witness_PrefixEntryAgreesWithEncode : tiny.err = none ∧ tiny.tlock = false ∧ tiny.prec = 0 ∧
    tiny.target = ⟨0, 0, 0, 0, 0⟩ ∧ targetEncode [0x30, 0x78, 0x31, 0x32] = none ∧
    targetEncode (List.replicate 40 0x61 ++ [0x38]) = none ∧ (targetEncode (List.replicate 40 0x61)).isSome = true ∧
    targetEncode [0x44, 0x65, 0x61, 0x64, 0x42, 0x65, 0x65] = some (⟨0xDEADBEE0, 0, 0, 0, 0⟩, 28) := by decide

/-- A prefix with a data byte between its characters, valid and invalid. -/
theorem witness_PrefixEntryMayBeInterleaved : Instr.cmp ∉ [.putc 0x61, .putb 1, .putc 0x62] ∧
    seen (execAll [.putc 0x61, .putb 1, .putc 0x62] tiny) (fun t => t.err) = some none ∧
    seen (execAll [.putc 0x61, .putb 1, .putc 0x78] tiny) (fun t => (t.err, t.ecmd)) =
      some (some .invalidPrefix, encode (.putc 0x78)) := by decide

/-- Right length and room; wrong length; right length and no room for the padding. -/
theorem witness_FramingBuildsMessage :
    (commitHeader 17).length + ([0x41].length + 16 + [].length (α := Byte)) ≤ Capacity.bytes 0 ∧
      (17 : Word).toNat = [(0x41 : Byte)].length + 16 + [].length (α := Byte) ∧
      padLen ((commitHeader 17).length + ([0x41].length + 16 + [].length (α := Byte))) ≤ Capacity.bytes 0 ∧
      (5 : Word).toNat ≠ [(0x41 : Byte)].length + 16 + [].length (α := Byte) ∧
      (commitHeader 46).length + ((List.replicate 30 (0x41 : Byte)).length + 16 + 0) = 56 ∧ 56 ≤ Capacity.bytes 0 ∧
      padLen 56 > Capacity.bytes 0 := by decide

theorem witness_ResultApplierYieldsObject : Inv framed ∧ framed.err = none ∧ framed.marked = true ∧ framed.padded = true ∧
    framed.hdrDone = true ∧ Memory.readList framed.mb framed.hlen.toNat framed.bodyLen.toNat = some (framedData.drop 10) := by
  refine ⟨framed_inv, ?_⟩
  decide

end Sys2Proof.Tests
end

section
/-! The text functions of 00_scope.md rules R6 to R9 (hexadecimal characters, nonces, decimal numerals): an equation per
case of each, and the obligations about them. -/

namespace Sys2Proof.Machine

open Sys2Proof

/-! ## Hexadecimal characters -/

theorem hexval_of_digit {c : Byte} (h : 0x30 ≤ c.toNat ∧ c.toNat ≤ 0x39) :
    hexval c = some (BitVec.ofNat 4 (c.toNat - 0x30)) :=
  if_pos h

theorem hexval_of_upper {c : Byte} (h : 0x41 ≤ c.toNat ∧ c.toNat ≤ 0x46) :
    hexval c = some (BitVec.ofNat 4 (c.toNat - 0x41 + 10)) := by
  have hdigit : ¬ (0x30 ≤ c.toNat ∧ c.toNat ≤ 0x39) := by omega
  simp only [hexval, if_neg hdigit, if_pos h]

theorem hexval_of_lower {c : Byte} (h : 0x61 ≤ c.toNat ∧ c.toNat ≤ 0x66) :
    hexval c = some (BitVec.ofNat 4 (c.toNat - 0x61 + 10)) := by
  have hdigit : ¬ (0x30 ≤ c.toNat ∧ c.toNat ≤ 0x39) := by omega
  have hupper : ¬ (0x41 ≤ c.toNat ∧ c.toNat ≤ 0x46) := by omega
  simp only [hexval, if_neg hdigit, if_neg hupper, if_pos h]

theorem hexval_of_other {c : Byte} (hdigit : ¬ (0x30 ≤ c.toNat ∧ c.toNat ≤ 0x39))
    (hupper : ¬ (0x41 ≤ c.toNat ∧ c.toNat ≤ 0x46)) (hlower : ¬ (0x61 ≤ c.toNat ∧ c.toNat ≤ 0x66)) :
    hexval c = none := by
  simp only [hexval, if_neg hdigit, if_neg hupper, if_neg hlower]

theorem hexU_toNat_of_le {v : BitVec 4} (h : v.toNat ≤ 9) : (hexU v).toNat = 0x30 + v.toNat := by
  simp only [hexU, if_pos h, BitVec.toNat_ofNat]
  omega

theorem hexU_toNat_of_ge {v : BitVec 4} (h : 10 ≤ v.toNat) : (hexU v).toNat = 0x41 + (v.toNat - 10) := by
  have hletter : ¬ v.toNat ≤ 9 := by omega
  simp only [hexU, if_neg hletter, BitVec.toNat_ofNat]
  omega

/-! ## Nonces -/

/-- Digit `i` of a nonce is a quotient, read as four bits. -/
theorem nonceDigit_eq_div (n : Nonce) (i : Nat) :
    nonceDigit n i = BitVec.ofNat 4 (n.toNat / 2 ^ (60 - 4 * i)) := by
  rw [nonceDigit, BitVec.extractLsb', Nat.shiftRight_eq_div_pow]

/-! ## Decimal numerals -/

/-- A positive number's leading digit is not 0: dividing by 10 keeps the number positive until one digit is left. -/
theorem dec_head?_of_pos (n : Nat) (hpos : 0 < n) (hlt : n < 2 ^ 32) :
    ∃ d, 0 < d ∧ d < 10 ∧ (dec n).head? = some (decDigit d) := by
  induction n using Nat.strongRecOn with
  | ind n ih =>
    by_cases hn : n < 10
    · exact ⟨n, hpos, hn, by rw [dec_of_lt hn, List.head?_cons]⟩
    · obtain ⟨d, hd, hd', hhead⟩ := ih (n / 10) (by omega) (by omega) (by omega)
      refine ⟨d, hd, hd', ?_⟩
      rw [dec_of_ge (by omega) hlt, List.head?_append, hhead, Option.some_or]

theorem dec_head?_ne_zero {n : Nat} (hpos : 0 < n) (hlt : n < 2 ^ 32) : (dec n).head? ≠ some 0x30 := by
  obtain ⟨d, hd, hd', hhead⟩ := dec_head?_of_pos n hpos hlt
  intro hzero
  have hdigit : decDigit d = 0x30 := Option.some.inj (hhead.symm.trans hzero)
  have hvalue := decDigit_toNat hd'
  rw [hdigit, show (0x30 : Byte).toNat = 0x30 from rfl] at hvalue
  omega

/-! ## The obligations of rules R6 to R9 -/

/-- Settles O12: the equations of `dec` by cases on the number, and its leading digit by induction on the quotient. -/
theorem decimalNumeral : Obligations.DecimalNumeral :=
  ⟨fun _ => dec_of_lt, fun _ => dec_of_ge, fun _ => dec_length,
    fun _ hge => dec_head?_ne_zero (by omega), by decide, by decide⟩

/-- Settles O9: the table's three ranges and its remainder are the branches of `hexval`. -/
theorem hexvalTable : Obligations.HexvalTable := by
  intro c
  refine ⟨fun h => ?_, fun h => ?_, fun h => ?_, hexval_of_other⟩
  · rw [hexval_of_digit h, Option.map_some, BitVec.toNat_ofNat, Nat.mod_eq_of_lt (by omega)]
  · rw [hexval_of_upper h, Option.map_some, BitVec.toNat_ofNat, Nat.mod_eq_of_lt (by omega)]
  · rw [hexval_of_lower h, Option.map_some, BitVec.toNat_ofNat, Nat.mod_eq_of_lt (by omega)]

/-- Settles O10: the two branches of `hexU`, and `hexval_hexU`. -/
theorem uppercaseHexDigit : Obligations.UppercaseHexDigit :=
  ⟨fun v => ⟨hexU_toNat_of_le, hexU_toNat_of_ge, hexval_hexU v⟩, by decide⟩

/-- Settles O11: each character is that of a nonce digit, and a nonce digit is a quotient. -/
theorem nonceAsSixteenCharacters : Obligations.NonceAsSixteenCharacters := by
  refine ⟨fun n => ⟨hex16_length n, fun i hi => ?_⟩, by decide⟩
  rw [hex16_getElem? n hi, nonceDigit_eq_div]

end Sys2Proof.Machine
end

section
/-! What the invariants of 10_state.md rule R32 say of the buffer, and that every command, every word and
every step keeps them. -/

namespace Sys2Proof.Machine

open Sys2Proof

/-! ## The bytes that hold a value (rule R11) -/

/-- The buffer is in canonical form and exactly its bytes below `v` hold a value: the first three items of `Inv`. -/
structure FilledTo (m : Memory) (v : Nat) : Prop where
  canonical : Memory.wf m = true
  written : ∀ a, a < v → (Memory.read m a).isSome = true
  noOther : ∀ c ∈ m, c.1 < v

theorem Inv.filledTo {s : State} (h : Inv s) : FilledTo s.mb s.vext := ⟨h.canonical, h.written, h.noOther⟩

/-- A store that begins inside the filled bytes, or right behind them, extends them to its end. -/
theorem FilledTo.writeList {m : Memory} {v w a : Nat} {bs : List Byte} (h : FilledTo m v) (ha : a ≤ v)
    (hw : w = max v (a + bs.length)) : FilledTo (Memory.writeList m a bs) w where
  canonical := Memory.wf_writeList h.canonical a bs
  written x hx := by
    rw [Memory.read_writeList]
    split
    · rw [List.getElem?_eq_getElem (by omega), Option.isSome_some]
    · exact h.written x (by omega)
  noOther c hc := by
    rcases Memory.mem_writeList hc with hin | hold
    · omega
    · have := h.noOther c hold
      omega

theorem FilledTo.readList {m : Memory} {v n : Nat} (h : FilledTo m v) (hn : n ≤ v) :
    ∃ d, Memory.readList m 0 n = some d :=
  Memory.readList_isSome fun i hi => h.written (0 + i) (by omega)

/-! ## Reads beside a store -/

theorem Memory.read_writeList_outside {m : Memory} {a x : Nat} {bs : List Byte} (h : ¬ (a ≤ x ∧ x < a + bs.length)) :
    Memory.read (Memory.writeList m a bs) x = Memory.read m x := by
  rw [Memory.read_writeList, if_neg h]

theorem Memory.readList_writeList_outside {m : Memory} {a b n : Nat} {bs : List Byte}
    (h : b + n ≤ a ∨ a + bs.length ≤ b) : Memory.readList (Memory.writeList m a bs) b n = Memory.readList m b n :=
  Memory.readList_congr fun _ _ _ => Memory.read_writeList_outside (by omega)

/-- A number of bytes that fits in the buffer fits in a 32-bit register (00_scope.md rule R5). -/
theorem State.toNat_ofNat_of_le_capacity {s : State} {n : Nat} (h : n ≤ s.capacity) :
    (BitVec.ofNat 32 n).toNat = n := by
  have := s.capacity_bounds
  rw [BitVec.toNat_ofNat, Nat.mod_eq_of_lt (by omega)]

/-! ## What a store keeps of the header and of the placeholder (items 2 to 4) -/

/-- A store behind the header keeps item 2, also when the data grow to `l` bytes. -/
theorem Inv.header_store {s : State} (h : Inv s) {a : Nat} {bs : List Byte} {l : Word} (hd : s.hdrDone = true)
    (ha : s.hlen.toNat ≤ a) (hl : s.len.toNat ≤ l.toNat) :
    s.hlen.toNat = 8 + (dec s.bodyLen.toNat).length ∧ 9 ≤ s.hlen.toNat ∧ s.hlen.toNat ≤ 18 ∧ s.hlen.toNat ≤ l.toNat ∧
      Memory.readList (Memory.writeList s.mb a bs) 0 s.hlen.toNat = some (commitHeader s.bodyLen) := by
  obtain ⟨hlen, hge, hle, hdata, hbytes⟩ := h.header hd
  refine ⟨hlen, hge, hle, hdata.trans hl, ?_⟩
  rw [Memory.readList_writeList_outside (.inl (by omega)), hbytes]

/-- A store behind the data keeps items 3 and 4, also when the data grow to `l` bytes. -/
theorem Inv.placeholder_store {s : State} (h : Inv s) {a : Nat} {bs : List Byte} {l : Word} (hm : s.marked = true)
    (ha : s.len.toNat ≤ a) (hl : s.len.toNat ≤ l.toNat) :
    s.poff.toNat + 16 ≤ l.toNat ∧ (s.hdrDone = true → s.hlen.toNat ≤ s.poff.toNat) ∧
      ∀ i, i < 16 → ∃ v : BitVec 4, Memory.read (Memory.writeList s.mb a bs) (s.poff.toNat + i) = some (hexU v) := by
  obtain ⟨hin, hbehind, hchars⟩ := h.placeholder hm
  refine ⟨hin.trans hl, hbehind, fun i hi => ?_⟩
  obtain ⟨v, hv⟩ := hchars i hi
  exact ⟨v, by rw [Memory.read_writeList_outside (by omega)]; exact hv⟩

theorem Inv.hlen_le {s : State} (h : Inv s) (hd : s.hdrDone = true) : s.hlen.toNat ≤ s.len.toNat := by
  obtain ⟨-, -, -, hle, -⟩ := h.header hd
  exact hle

theorem Inv.not_stripped {s : State} (h : Inv s) (hp : s.padded = false) : s.stripped = false := by
  cases hs : s.stripped with
  | false => rfl
  | true =>
    obtain ⟨hp', -⟩ := h.isStripped hs
    exact absurd (hp.symm.trans hp') Bool.false_ne_true

/-- With no data there is no placeholder. -/
theorem Inv.not_marked_of_len {s : State} (h : Inv s) (hl : s.len = 0) : s.marked = false := by
  cases hm : s.marked with
  | false => rfl
  | true =>
    obtain ⟨hin, -⟩ := h.placeholder hm
    simp [hl] at hin

/-! ## Appending to the data: the shared store of HDR, PUTB and MARK -/

/-- The bytes `bs` stored from address `a` on and counted as data. -/
def appendBytes (a : Nat) (bs : List Byte) (s : State) : State :=
  { s with mb := Memory.writeList s.mb a bs, len := BitVec.ofNat 32 (a + bs.length) }

/-- Bytes appended to the data of a buffer that is not frozen keep the invariants. -/
theorem Inv.appendBytes_effect {s : State} (h : Inv s) (hp : s.padded = false) {a : Nat} {bs : List Byte}
    (ha : a = s.len.toNat) (hfit : a + bs.length ≤ s.capacity) : Inv (appendBytes a bs s) := by
  have hlen : (appendBytes a bs s).len.toNat = a + bs.length := State.toNat_ofNat_of_le_capacity hfit
  have hvext : (appendBytes a bs s).vext = a + bs.length := (vext_of_not_padded (by exact hp)).trans hlen
  have hfilled : FilledTo (appendBytes a bs s).mb (appendBytes a bs s).vext :=
    h.filledTo.writeList (by rw [vext_of_not_padded hp]; omega) (by rw [hvext, vext_of_not_padded hp]; omega)
  have hgrows : s.len.toNat ≤ (appendBytes a bs s).len.toNat := by omega
  exact
    { h with
      canonical := hfilled.canonical
      written := hfilled.written
      noOther := hfilled.noOther
      extent := ⟨(hlen.trans hvext.symm).le, hvext.trans_le hfit⟩
      header := fun hd => h.header_store hd (by have := h.hlen_le hd; omega) hgrows
      placeholder := fun hm => h.placeholder_store hm ha.ge hgrows
      isPadded := fun hp' => absurd (hp.symm.trans hp') Bool.false_ne_true
      isStripped := fun hs => absurd ((h.not_stripped hp).symm.trans hs) Bool.false_ne_true }

theorem Inv.hdr_effect {s : State} (h : Inv s) (n : Word) (hp : s.padded = false) (hl : s.len = 0) :
    Inv { s with
          mb := Memory.writeList s.mb 0 (commitHeader n)
          len := BitVec.ofNat 32 (commitHeader n).length
          hlen := BitVec.ofNat 32 (commitHeader n).length
          bodyLen := n
          hdrDone := true } := by
  obtain ⟨hge, hle⟩ := commitHeader_length_bounds n
  have hcap := s.capacity_bounds
  have hfit : (commitHeader n).length ≤ s.capacity := by omega
  have hlen := State.toNat_ofNat_of_le_capacity hfit
  have happ : Inv (appendBytes 0 (commitHeader n) s) := h.appendBytes_effect hp (by simp [hl]) (by omega)
  rw [appendBytes, Nat.zero_add] at happ
  exact
    { happ with
      noHeader := fun hd => absurd hd.symm Bool.false_ne_true
      header := fun _ => by
        simp only [hlen]
        exact ⟨commitHeader_length n, hge, hle, le_rfl, Memory.readList_writeList s.mb 0 (commitHeader n)⟩
      placeholder := fun hm => absurd ((h.not_marked_of_len hl).symm.trans hm) Bool.false_ne_true
      isPadded := fun hp' => absurd (hp.symm.trans hp') Bool.false_ne_true
      isStripped := fun hs => absurd ((h.not_stripped hp).symm.trans hs) Bool.false_ne_true }

theorem Inv.mark_effect {s : State} (h : Inv s) (hp : s.padded = false) (hfit : s.len.toNat + 16 ≤ s.capacity) :
    Inv { s with
          mb := Memory.writeList s.mb s.len.toNat (List.replicate 16 0x46)
          poff := s.len
          len := BitVec.ofNat 32 (s.len.toNat + 16)
          marked := true } :=
  { h.appendBytes_effect (bs := List.replicate 16 0x46) hp rfl hfit with
    noPlaceholder := fun hm => absurd hm.symm Bool.false_ne_true
    placeholder := fun _ => by
      refine ⟨(State.toNat_ofNat_of_le_capacity hfit).ge, h.hlen_le, fun i hi => ⟨15, ?_⟩⟩
      refine (byte_store s s.len.toNat (List.replicate 16 0x46) (s.len.toNat + i)).trans ?_
      rw [List.length_replicate, if_pos (by omega), List.getElem?_replicate, if_pos (by omega)]
      rfl }

/-! ## PAD -/

/-- Data that read as some bytes are padded in the buffer exactly when their padding stands behind them. -/
theorem Memory.readList_eq_map_pad_iff {m : Memory} {n : Nat} {d : List Byte} (hd : Memory.readList m 0 n = some d) :
    Memory.readList m 0 (padLen n) = (Memory.readList m 0 n).map Machine.pad ↔
      Memory.readList m n (padLen n - n) = some (padTail n) := by
  have hlen : d.length = n := (Memory.readList_eq_some.1 hd).1
  have hpad : Machine.pad d = d ++ padTail n := by rw [Machine.pad, hlen]
  have hle : n + (padLen n - n) = padLen n := by have := padLen_bounds n; omega
  rw [hd, Option.map_some, hpad]
  constructor
  · intro h
    obtain ⟨-, hbytes⟩ := Memory.readList_eq_some.1 h
    refine Memory.readList_eq_some.2 ⟨padTail_length n, fun i hi => ?_⟩
    have := hbytes (n + i) (by omega)
    rwa [Nat.zero_add, List.getElem?_append_right (by omega), hlen, Nat.add_sub_cancel_left] at this
  · intro h
    rw [← hle]
    exact Memory.readList_append hd (by rwa [Nat.zero_add])

theorem Inv.pad_effect {s : State} (h : Inv s) (hp : s.padded = false)
    (hlen : s.hdrDone = true → (s.len.toNat : Int) - s.hlen.toNat = s.bodyLen.toNat)
    (hfit : padLen s.len.toNat ≤ s.capacity) :
    Inv { s with
          mb := Memory.writeList s.mb s.len.toNat (padTail s.len.toNat)
          plen := BitVec.ofNat 32 (padLen s.len.toNat)
          padded := true } := by
  have hplen := State.toNat_ofNat_of_le_capacity hfit
  have hlong := padLen_bounds s.len.toNat
  have htail := padTail_length s.len.toNat
  have hvext : s.vext = s.len.toNat := vext_of_not_padded hp
  have hfilled : FilledTo (Memory.writeList s.mb s.len.toNat (padTail s.len.toNat))
      (BitVec.ofNat 32 (padLen s.len.toNat)).toNat := h.filledTo.writeList hvext.ge (by omega)
  obtain ⟨d, hd⟩ := hfilled.readList (n := s.len.toNat) (by omega)
  exact
    { h with
      canonical := hfilled.canonical
      written := hfilled.written
      noOther := hfilled.noOther
      extent := ⟨show s.len.toNat ≤ (BitVec.ofNat 32 (padLen s.len.toNat)).toNat by omega, hplen.trans_le hfit⟩
      header := fun hd => h.header_store hd (h.hlen_le hd) le_rfl
      placeholder := fun hm => h.placeholder_store hm le_rfl le_rfl
      notPadded := fun hp' => absurd hp'.symm Bool.false_ne_true
      isPadded := fun _ => by
        refine ⟨hplen, ?_, fun hh => by have := hlen hh; dsimp only; omega⟩
        rw [hplen]
        exact (Memory.readList_eq_map_pad_iff hd).2 (htail ▸ Memory.readList_writeList _ _ _)
      isStripped := fun hs => absurd ((h.not_stripped hp).symm.trans hs) Bool.false_ne_true }

/-! ## SPLICE -/

/-- A byte of the placeholder is not `0x00` (item 4). -/
theorem Inv.placeholder_ne_zero {s : State} (h : Inv s) (hm : s.marked = true) {a : Nat}
    (ha : s.poff.toNat ≤ a ∧ a < s.poff.toNat + 16) : s.byte a ≠ some 0 := by
  obtain ⟨-, -, hchars⟩ := h.placeholder hm
  obtain ⟨v, hv⟩ := hchars (a - s.poff.toNat) (by omega)
  rw [Nat.add_sub_cancel' ha.1] at hv
  rw [hv]
  exact fun h0 => hexU_ne_zero v (Option.some.inj h0)

section
variable {bs : List Byte} (hlen : bs.length = 16) (hchars : ∀ i, i < 16 → ∃ v : BitVec 4, bs[i]? = some (hexU v))
include hlen hchars

/-- Sixteen uppercase hexadecimal characters stored over bytes other than `0x00` leave every `0x00` of the buffer
where it was. -/
theorem read_writeList_eq_zero_iff {m : Memory} {p : Nat} (hne : ∀ a, p ≤ a ∧ a < p + 16 → Memory.read m a ≠ some 0)
    (a : Nat) : Memory.read (Memory.writeList m p bs) a = some 0 ↔ Memory.read m a = some 0 := by
  rw [Memory.read_writeList, hlen]
  split
  case isTrue ha =>
    obtain ⟨v, hv⟩ := hchars (a - p) (by omega)
    rw [hv]
    exact iff_of_false (fun h0 => hexU_ne_zero v (Option.some.inj h0)) (hne a ha)
  case isFalse => rfl

/-- Sixteen uppercase hexadecimal characters stored at the placeholder keep the invariants. -/
theorem Inv.overwritePlaceholder {s : State} (h : Inv s) (hm : s.marked = true) :
    Inv { s with mb := Memory.writeList s.mb s.poff.toNat bs } := by
  obtain ⟨hin, hbehind, -⟩ := h.placeholder hm
  obtain ⟨hext, -⟩ := h.extent
  have hzero := read_writeList_eq_zero_iff hlen hchars fun a ha => h.placeholder_ne_zero hm ha
  have hfilled : FilledTo (Memory.writeList s.mb s.poff.toNat bs) s.vext := h.filledTo.writeList (by omega) (by omega)
  exact
    { h with
      canonical := hfilled.canonical
      written := hfilled.written
      noOther := hfilled.noOther
      header := fun hd => h.header_store hd (hbehind hd) le_rfl
      placeholder := fun _ => by
        refine ⟨hin, hbehind, fun i hi => ?_⟩
        obtain ⟨v, hv⟩ := hchars i hi
        refine ⟨v, (byte_store s s.poff.toNat bs (s.poff.toNat + i)).trans ?_⟩
        rw [if_pos (by omega), Nat.add_sub_cancel_left, hv]
      isPadded := fun hp => by
        obtain ⟨hplen, hpad, hbody⟩ := h.isPadded hp
        obtain ⟨d, hd⟩ := h.filledTo.readList hext
        obtain ⟨d', hd'⟩ := hfilled.readList hext
        rw [hplen, Memory.readList_eq_map_pad_iff hd] at hpad
        refine ⟨hplen, ?_, hbody⟩
        rw [hplen, Memory.readList_eq_map_pad_iff hd', Memory.readList_writeList_outside (.inr (by omega)), hpad]
      isStripped := fun hs => by
        obtain ⟨hp, hge, hle, hend, hz, hfirst, hbody⟩ := h.isStripped hs
        exact ⟨hp, hge, hle, hend, (hzero _).2 hz, fun a ha => mt (hzero a).1 (hfirst a ha), hbody⟩ }

end

theorem Inv.splice_effect {s : State} (h : Inv s) (hm : s.marked = true) :
    Inv { s with mb := Memory.writeList s.mb s.poff.toNat (hex16 s.nonce) } :=
  Inv.overwritePlaceholder (hex16_length s.nonce) (fun _ hi => ⟨_, hex16_getElem? s.nonce hi⟩) h hm

/-! ## STRIP -/

/-- The first `0x00` of framed data is the header's last byte. -/
theorem Inv.header_zero {s : State} (h : Inv s) (hd : s.hdrDone = true) :
    s.byte (s.hlen.toNat - 1) = some 0 ∧ ∀ a, a < s.hlen.toNat - 1 → ∃ b, s.byte a = some b ∧ b ≠ 0 := by
  obtain ⟨hlen, -, -, -, hbytes⟩ := h.header hd
  obtain ⟨front, hfront, hflen, hnz⟩ := commitHeader_split s.bodyLen
  obtain ⟨-, hread⟩ := Memory.readList_eq_some.1 hbytes
  simp only [Nat.zero_add, hfront] at hread
  constructor
  · refine (hread _ (by omega)).trans ?_
    rw [List.getElem?_append_right (by omega), show s.hlen.toNat - 1 - front.length = 0 by omega]
    rfl
  · intro a ha
    refine ⟨front[a], ?_, hnz _ (List.getElem_mem _)⟩
    exact (hread a (by omega)).trans (by rw [List.getElem?_append_left (by omega), List.getElem?_eq_getElem])

theorem Memory.scanZero_eq_zeroAt {m : Memory} {n z : Nat} (h : Memory.scanZero m 0 n = .zeroAt z) :
    z < n ∧ Memory.read m z = some 0 ∧ ∀ a, a < z → ∃ b, Memory.read m a = some b ∧ b ≠ 0 := by
  rcases Memory.scanZero_cases m 0 n with ⟨x, hx, -, hlt, h0, hbefore⟩ | ⟨hx, -⟩ | ⟨x, hx, -⟩
  · cases hx.symm.trans h
    exact ⟨by omega, h0, fun a => hbefore a a.zero_le⟩
  · cases hx.symm.trans h
  · cases hx.symm.trans h

/-- The scan of framed data ends at the header's last byte. -/
theorem Inv.scanZero_framed {s : State} (h : Inv s) (hd : s.hdrDone = true) {z : Nat}
    (hz : Memory.scanZero s.mb 0 s.len.toNat = .zeroAt z) : z = s.hlen.toNat - 1 := by
  obtain ⟨-, hzero, hbefore⟩ := Memory.scanZero_eq_zeroAt hz
  obtain ⟨hend, hfront⟩ := h.header_zero hd
  rcases lt_trichotomy z (s.hlen.toNat - 1) with hlt | heq | hgt
  · obtain ⟨b, hb, hne⟩ := hfront z hlt
    exact absurd (Option.some.inj (hb.symm.trans hzero)) hne
  · exact heq
  · obtain ⟨b, hb, hne⟩ := hbefore _ hgt
    exact absurd (Option.some.inj (hb.symm.trans hend)) hne

theorem Inv.strip_effect {s : State} (h : Inv s) (hp : s.padded = true) {z : Nat}
    (hz : Memory.scanZero s.mb 0 s.len.toNat = .zeroAt z) : Inv (recordObject z s) := by
  obtain ⟨hlt, hzero, hbefore⟩ := Memory.scanZero_eq_zeroAt hz
  obtain ⟨hext, hcap⟩ := h.extent
  have hoff : (BitVec.ofNat 32 (z + 1)).toNat = z + 1 := State.toNat_ofNat_of_le_capacity (s := s) (by omega)
  have hobj : (BitVec.ofNat 32 (s.len.toNat - (z + 1))).toNat = s.len.toNat - (z + 1) :=
    State.toNat_ofNat_of_le_capacity (s := s) (by omega)
  exact
    { h with
      notStripped := fun hs => absurd hs.symm Bool.false_ne_true
      isStripped := fun _ => by
        simp only [recordObject_padded, recordObject_objOff, recordObject_objLen, recordObject_len,
          recordObject_hdrDone, recordObject_hlen, recordObject_bodyLen, byte_recordObject, hoff, hobj, Nat.add_sub_cancel]
        refine ⟨hp, by omega, hlt, by omega, hzero, fun a ha => ?_, fun hd => ?_⟩
        · obtain ⟨b, hb, hne⟩ := hbefore a ha
          exact fun h0 => hne (Option.some.inj (hb.symm.trans h0))
        · obtain ⟨-, hge, -⟩ := h.header hd
          obtain ⟨-, -, hbody⟩ := h.isPadded hp
          have hend := h.scanZero_framed hd hz
          have hlen := hbody hd
          exact ⟨BitVec.eq_of_toNat_eq (by omega), BitVec.eq_of_toNat_eq (by omega)⟩ }

/-! ## PUTC -/

/-- Where a bit of the 160-bit number stands in the five words (41_target_match.md rule R93). -/
theorem w160_getLsbD (x : Words5) {i : Nat} (hi : i < 160) :
    (w160 x).getLsbD i = (x.get (4 - i / 32)).getLsbD (i % 32) := by
  unfold w160
  erw [BitVec.getLsbD_append, BitVec.getLsbD_append, BitVec.getLsbD_append, BitVec.getLsbD_append]
  obtain h | h | h | h | h : i / 32 = 0 ∨ i / 32 = 1 ∨ i / 32 = 2 ∨ i / 32 = 3 ∨ i / 32 = 4 := by omega
  · rw [if_pos (by omega), h, show i % 32 = i by omega]
    rfl
  · rw [if_neg (by omega), if_pos (by omega), h, show i % 32 = i - 32 by omega]
    rfl
  · rw [if_neg (by omega), if_neg (by omega), if_pos (by omega), h, show i % 32 = i - 32 - 32 by omega]
    rfl
  · rw [if_neg (by omega), if_neg (by omega), if_neg (by omega), if_pos (by omega), h,
      show i % 32 = i - 32 - 32 - 32 by omega]
    rfl
  · rw [if_neg (by omega), if_neg (by omega), if_neg (by omega), if_neg (by omega), h,
      show i % 32 = i - 32 - 32 - 32 - 32 by omega]
    rfl

/-- Digit `k` of the Target is replaced without a change to the bits below it. -/
theorem w160_putTargetDigit_below (t : Words5) {k i : Nat} (d : BitVec 4) (hk : k < 40) (hi : i < 160 - 4 * (k + 1)) :
    (w160 (putTargetDigit t k d)).getLsbD i = (w160 t).getLsbD i := by
  rw [w160_getLsbD _ (by omega), w160_getLsbD _ (by omega), putTargetDigit, Words5.get_set _ _ (by omega) (by omega)]
  split
  case isFalse => rfl
  case isTrue hword =>
    rw [setDigit_getLsbD _ _ (by omega), digitShift, if_neg (by omega), hword]

theorem toNat_mod_two_pow_eq_zero_iff {w : Nat} (x : BitVec w) (n : Nat) :
    x.toNat % 2 ^ n = 0 ↔ ∀ i, i < n → x.getLsbD i = false := by
  constructor
  · intro h i hi
    have hbit := Nat.testBit_mod_two_pow x.toNat n i
    rw [h, Nat.zero_testBit, decide_eq_true hi, Bool.true_and] at hbit
    exact hbit.symm
  · intro h
    refine Nat.eq_of_testBit_eq fun i => ?_
    rw [Nat.testBit_mod_two_pow, Nat.zero_testBit]
    by_cases hi : i < n
    · rw [BitVec.testBit_toNat, h i hi, Bool.and_false]
    · rw [decide_eq_false hi, Bool.false_and]

theorem Inv.putc_effect {s : State} (h : Inv s) (d : BitVec 4) (hlt : s.prec.toNat < 160) : Inv (recordDigit d s) := by
  obtain ⟨hfour, -, hlow⟩ := h.precision
  have hprec : (BitVec.ofNat 8 (s.prec.toNat + 4)).toNat = s.prec.toNat + 4 := by
    rw [BitVec.toNat_ofNat, Nat.mod_eq_of_lt (by omega)]
  exact
    { h with
      precision := by
        rw [recordDigit_prec, recordDigit_target, hprec]
        refine ⟨by omega, by omega, (toNat_mod_two_pow_eq_zero_iff _ _).2 fun i hi => ?_⟩
        rw [w160_putTargetDigit_below _ _ (by omega) (by omega)]
        exact (toNat_mod_two_pow_eq_zero_iff _ _).1 hlow i (by omega) }

/-! ## CMP -/

/-- A match fills the slot if it was empty, and CMP sets the lock with either result. -/
theorem Inv.cmp_effect {s : State} (h : Inv s) (m : Bool) : Inv (recordMatch m s) := by
  obtain ⟨hempty, -, -⟩ := h.resultSlot
  exact
    { h with
      resultSlot := by
        simp only [recordMatch_rvalid, recordMatch_result, recordMatch_tlock, recordMatch_matched]
        cases m with
        | false => simpa using hempty
        | true => simp }

/-! ## Faults, the nonce, the digest, reset -/

theorem Inv.raise {s : State} (h : Inv s) (x : Cause) (w : CmdWord) : Inv (raise x w s) :=
  { h with faultRecord := fun he => absurd he (Option.some_ne_none x) }

/-- No item of rule R32 reads the nonce or the digest, or what the host presents next. -/
theorem Inv.setNonceDigestPort {s : State} (h : Inv s) (n : Nonce) (d : Words5) (p : List HostEvent) :
    Inv { s with nonce := n, digest := d, port := p } :=
  { h with }

theorem inv_resetEvent (s : State) : Inv (resetEvent s) where
  canonical := reset_wf
  written _ ha := absurd ha (Nat.not_lt_zero _)
  noOther _ hc := absurd hc List.not_mem_nil
  extent := ⟨le_rfl, Nat.zero_le _⟩
  noHeader _ := ⟨rfl, rfl⟩
  header hd := absurd hd Bool.false_ne_true
  noPlaceholder _ := rfl
  placeholder hm := absurd hm Bool.false_ne_true
  notPadded _ := rfl
  isPadded hp := absurd hp Bool.false_ne_true
  notStripped _ := ⟨rfl, rfl⟩
  isStripped hs := absurd hs Bool.false_ne_true
  precision := by
    rw [resetEvent_prec, resetEvent_target]
    decide
  resultSlot := ⟨fun _ => rfl, fun hv => absurd hv Bool.false_ne_true, fun hm => absurd hm Bool.false_ne_true⟩
  faultRecord _ := rfl

/-! ## Every command, word and step -/

theorem answers.inv {w : CmdWord} {s t : State} {effect : Prop} (h : answers w s t effect) (hi : Inv s)
    (he : effect → Inv t) : Inv t := by
  obtain ⟨-, rfl⟩ | ⟨x, -, rfl⟩ | ⟨-, heff⟩ := h
  · exact hi
  · exact hi.raise x w
  · exact he heff

theorem answersNoFault.inv {s t : State} {effect : Prop} (h : answersNoFault s t effect) (hi : Inv s)
    (he : effect → Inv t) : Inv t := by
  obtain ⟨-, rfl⟩ | ⟨-, heff⟩ := h
  · exact hi
  · exact he heff

theorem exec_inv {i : Instr} {s t : State} (hs : Inv s) (h : exec i s = .next t) : Inv t := by
  cases i with
  | hdr n =>
    refine (execHdr_next h).inv hs ?_
    rintro ⟨hp, hl, rfl⟩
    exact hs.hdr_effect n hp hl
  | putb b =>
    refine (execPutb_next h).inv hs ?_
    rintro ⟨hp, hlt, rfl⟩
    exact hs.appendBytes_effect (bs := [b]) hp rfl hlt
  | mark =>
    refine (execMark_next h).inv hs ?_
    rintro ⟨hp, -, hfit, rfl⟩
    exact hs.mark_effect hp hfit
  | pad =>
    refine (execPad_next h).inv hs ?_
    rintro ⟨hp, hlen, hfit, rfl⟩
    exact hs.pad_effect hp hlen hfit
  | splice =>
    refine (execSplice_next h).inv hs ?_
    rintro ⟨hm, -, rfl⟩
    exact hs.splice_effect hm
  | strip =>
    refine (execStrip_next h).inv hs ?_
    rintro ⟨hp, z, hz, rfl⟩
    exact hs.strip_effect hp hz
  | putc c =>
    refine (execPutc_next h).inv hs ?_
    rintro ⟨-, hlt, d, -, rfl⟩
    exact hs.putc_effect d hlt
  | cmp =>
    refine (execCmp_next h).inv hs ?_
    rintro ⟨-, rfl⟩
    exact hs.cmp_effect _
  | setnl v => exact (execSetnl_next h).inv hs fun ht => ht ▸ hs.setNonceDigestPort _ s.digest s.port
  | setnh v => exact (execSetnh_next h).inv hs fun ht => ht ▸ hs.setNonceDigestPort _ s.digest s.port
  | setd0 v => exact (execSetd0_next h).inv hs fun ht => ht ▸ hs.setNonceDigestPort s.nonce _ s.port
  | setd1 v => exact (execSetd1_next h).inv hs fun ht => ht ▸ hs.setNonceDigestPort s.nonce _ s.port
  | setd2 v => exact (execSetd2_next h).inv hs fun ht => ht ▸ hs.setNonceDigestPort s.nonce _ s.port
  | setd3 v => exact (execSetd3_next h).inv hs fun ht => ht ▸ hs.setNonceDigestPort s.nonce _ s.port
  | setd4 v => exact (execSetd4_next h).inv hs fun ht => ht ▸ hs.setNonceDigestPort s.nonce _ s.port

theorem execWord_inv {w : CmdWord} {s t : State} (hs : Inv s) (h : execWord w s = .next t) : Inv t := by
  obtain ⟨-, rfl⟩ | ⟨-, -, rfl⟩ | ⟨-, i, -, hexec⟩ := execWord_next h
  · exact hs
  · exact hs.raise .illegalCommand w
  · exact exec_inv hs hexec

theorem step_inv {s t : State} (hs : Inv s) (h : step s = .next t) : Inv t := by
  obtain ⟨-, rfl⟩ | ⟨rest, -, rfl⟩ | ⟨w, rest, -, hword⟩ := step_next h
  · exact hs
  · exact inv_resetEvent _
  · exact execWord_inv (hs.setNonceDigestPort s.nonce s.digest rest) hword

/-- Settles O51: one lemma per command that changes what the invariants speak of, the frame of the others, then the word
and the step. -/
theorem everyStepKeepsInvariants : Obligations.EveryStepKeepsInvariants :=
  ⟨fun _ _ _ => execWord_inv, inv_resetEvent, fun _ _ => step_inv⟩

end Sys2Proof.Machine
end

section
/-! The read ports, the state after reset and the result slot (10_state.md rules R17, R23, R25 to R28 and R33). -/

namespace Sys2Proof.Machine

open Sys2Proof

/-! ## The read ports -/

theorem faultOut_iff (s : State) : s.faultOut = true ↔ s.errCode ≠ 0 := by
  unfold State.faultOut State.errCode
  cases s.err with
  | none => decide
  | some x => cases x <;> decide

theorem toNat_append_eq_add {n m : Nat} (x : BitVec n) (y : BitVec m) : (x ++ y).toNat = x.toNat * 2 ^ m + y.toNat := by
  rw [BitVec.toNat_append, ← Nat.shiftLeft_add_eq_or_of_lt y.isLt, Nat.shiftLeft_eq]

theorem flagBit_toNat (b : Bool) : (flagBit b).toNat = b.toNat := by cases b <;> rfl

/-- The packing of rule R25 as a number: the bits above the flags add nothing. -/
theorem status_toNat (s : State) :
    s.status.toNat = s.rvalid.toNat * 2 ^ 10 + s.matched.toNat * 2 ^ 9 + s.tlock.toNat * 2 ^ 8 +
      s.stripped.toNat * 2 ^ 7 + s.padded.toNat * 2 ^ 6 + s.marked.toNat * 2 ^ 5 + s.hdrDone.toNat * 2 ^ 4 + s.errCode.toNat := by
  refine (toNat_append_eq_add _ s.errCode).trans ?_
  simp only [toNat_append_eq_add, flagBit_toNat, show (0 : BitVec 21).toNat = 0 from rfl]
  omega

/-- A bit of a word from the word's value. -/
theorem getLsbD_of_div_mod {n k : Nat} {x : BitVec n} {b : Bool} (h : x.toNat / 2 ^ k % 2 = b.toNat) :
    x.getLsbD k = b := by
  rw [← BitVec.testBit_toNat, Nat.testBit_eq_decide_div_mod_eq, h]
  cases b <;> rfl

/-- Settles O46: `STATUS` is the sum of its fields at their places, and each field is read back by a division. -/
theorem statusFields : Obligations.StatusFields := by
  intro s
  have hstatus := status_toNat s
  have herr := s.errCode.isLt
  have hhdr := s.hdrDone.toNat_le
  have hmarked := s.marked.toNat_le
  have hpadded := s.padded.toNat_le
  have hstripped := s.stripped.toNat_le
  have htlock := s.tlock.toNat_le
  have hmatched := s.matched.toNat_le
  have hrvalid := s.rvalid.toNat_le
  refine ⟨BitVec.eq_of_toNat_eq ?_, getLsbD_of_div_mod ?_, getLsbD_of_div_mod ?_, getLsbD_of_div_mod ?_,
    getLsbD_of_div_mod ?_, getLsbD_of_div_mod ?_, getLsbD_of_div_mod ?_, getLsbD_of_div_mod ?_,
    BitVec.eq_of_toNat_eq ?_, faultOut_iff s⟩
  case refine_1 =>
    rw [BitVec.extractLsb'_toNat, Nat.shiftRight_eq_div_pow]
    omega
  case refine_9 =>
    rw [BitVec.extractLsb'_toNat, Nat.shiftRight_eq_div_pow, show (0 : BitVec 21).toNat = 0 from rfl]
    omega
  all_goals omega

theorem regRead_of_ge {s : State} {n : BitVec 8} (h : 25 ≤ n.toNat) : s.regRead n = 0 := by
  obtain ⟨k, hk⟩ := Nat.exists_eq_add_of_le' h
  rw [State.regRead, hk]
  rfl

theorem bufRead_of_lt {s : State} {a : Word} (h : a.toNat < s.vext) : s.bufRead a = s.byte a.toNat := if_pos h

theorem bufRead_of_ge {s : State} {a : Word} (h : s.vext ≤ a.toNat) : s.bufRead a = none := if_neg (Nat.not_lt.2 h)

/-- Settles O47: the 25 numbers of the map one by one, and every greater number. -/
theorem regReadMap : Obligations.RegReadMap := fun _ => ⟨rfl, rfl, fun _ => regRead_of_ge⟩

/-- Settles O48: the two cases of `VEXT`, the two of `BufRead`, and what the invariants say below `VEXT`. -/
theorem bufReadWithinExtent : Obligations.BufReadWithinExtent := by
  refine fun s => ⟨vext_of_padded, vext_of_not_padded, Inv.extent, fun _ => bufRead_of_lt, fun hs a ha => ?_,
    fun _ => bufRead_of_ge⟩
  rw [bufRead_of_lt ha]
  exact Option.isSome_iff_exists.1 (hs.written _ ha)

/-! ## The state after reset -/

/-- Settles O44: every register by the definition of `State.reset`; below `VEXT = 0` there is no address to read. -/
theorem resetClearsRegisters : Obligations.ResetClearsRegisters :=
  ⟨rfl, rfl, rfl, rfl, rfl, rfl, rfl, rfl, rfl, rfl, rfl, rfl, rfl, rfl, rfl, rfl, rfl, rfl, rfl, rfl, rfl, rfl, rfl, rfl,
    fun a => bufRead_of_ge a.toNat.zero_le, fun _ => rfl⟩

/-! ## The result slot -/

/-- `RVALID` and `RESULT` (rule R23). -/
def State.resultSlot (s : State) : Bool × Nonce := (s.rvalid, s.result)

/-- What neither a fault nor the effect of a command changes, the command does not change. -/
theorem answers.keeps {α : Type} {f : State → α} {w : CmdWord} {s t : State} {effect : Prop} (h : answers w s t effect)
    (hraise : ∀ x, f (raise x w s) = f s) (heffect : effect → f t = f s) : f t = f s := by
  obtain ⟨-, rfl⟩ | ⟨x, -, rfl⟩ | ⟨-, heff⟩ := h
  · rfl
  · exact hraise x
  · exact heffect heff

theorem answersNoFault.keeps {α : Type} {f : State → α} {s t : State} {effect : Prop} (h : answersNoFault s t effect)
    (heffect : effect → f t = f s) : f t = f s := by
  obtain ⟨-, rfl⟩ | ⟨-, heff⟩ := h
  · rfl
  · exact heffect heff

/-- Only CMP writes the result slot. -/
theorem exec_resultSlot {i : Instr} {s t : State} (hi : i ≠ .cmp) (h : exec i s = .next t) :
    t.resultSlot = s.resultSlot := by
  cases i with
  | hdr n => exact (execHdr_next h).keeps (fun _ => rfl) fun ⟨_, _, ht⟩ => ht ▸ rfl
  | putb b => exact (execPutb_next h).keeps (fun _ => rfl) fun ⟨_, _, ht⟩ => ht ▸ rfl
  | mark => exact (execMark_next h).keeps (fun _ => rfl) fun ⟨_, _, _, ht⟩ => by simp only [ht, State.resultSlot]
  | pad => exact (execPad_next h).keeps (fun _ => rfl) fun ⟨_, _, _, ht⟩ => ht ▸ rfl
  | setnl v => exact (execSetnl_next h).keeps fun ht => ht ▸ rfl
  | setnh v => exact (execSetnh_next h).keeps fun ht => ht ▸ rfl
  | splice => exact (execSplice_next h).keeps (fun _ => rfl) fun ⟨_, _, ht⟩ => by simp only [ht, State.resultSlot]
  | strip => exact (execStrip_next h).keeps (fun _ => rfl) fun ⟨_, _, _, ht⟩ => ht ▸ rfl
  | putc c => exact (execPutc_next h).keeps (fun _ => rfl) fun ⟨_, _, _, _, ht⟩ => ht ▸ rfl
  | cmp => exact absurd rfl hi
  | setd0 v => exact (execSetd0_next h).keeps fun ht => ht ▸ rfl
  | setd1 v => exact (execSetd1_next h).keeps fun ht => ht ▸ rfl
  | setd2 v => exact (execSetd2_next h).keeps fun ht => ht ▸ rfl
  | setd3 v => exact (execSetd3_next h).keeps fun ht => ht ▸ rfl
  | setd4 v => exact (execSetd4_next h).keeps fun ht => ht ▸ rfl

/-- A word leaves the result slot as it is, or it is a CMP that records its comparison. -/
theorem execWord_resultSlot {w : CmdWord} {s t : State} (h : execWord w s = .next t) :
    (t.rvalid = s.rvalid ∧ t.result = s.result ∧ (s.err = none → decode w ≠ .command .cmp)) ∨
      (decode w = .command .cmp ∧ t = recordMatch (prefixMatch s.digest s.target s.prec.toNat) s) := by
  obtain ⟨hhalted, rfl⟩ | ⟨-, ⟨why, hw⟩, rfl⟩ | ⟨herr, i, hw, hexec⟩ := execWord_next h
  · exact .inl ⟨rfl, rfl, fun herr => absurd herr hhalted⟩
  · exact .inl ⟨rfl, rfl, fun _ hcmp => by cases hw.symm.trans hcmp⟩
  · by_cases hi : i = .cmp
    · subst hi
      obtain ⟨hhalted, -⟩ | ⟨-, -, ht⟩ := execCmp_next hexec
      · exact absurd herr hhalted
      · exact .inr ⟨hw, ht⟩
    · obtain ⟨hvalid, hresult⟩ := Prod.mk.inj (exec_resultSlot hi hexec)
      exact .inl ⟨hvalid, hresult, fun _ hcmp => hi (Decoded.command.inj (hw.symm.trans hcmp))⟩

/-- Settles O56: a word that is no CMP keeps the slot, and a CMP writes it by `recordMatch`. -/
theorem resultSlotWrittenOnce : Obligations.ResultSlotWrittenOnce := by
  refine ⟨⟨rfl, rfl⟩, fun w s t h => ?_⟩
  have hzero : Inv s → s.rvalid = false → s.result = 0 := fun hs => by
    obtain ⟨hempty, -, -⟩ := hs.resultSlot
    exact hempty
  obtain ⟨hvalid, hresult, hno⟩ | ⟨hcmp, rfl⟩ := execWord_resultSlot h
  · refine ⟨fun hv => ⟨hvalid.trans hv, hresult⟩, fun he hf => ?_, fun herr _ hcmp => absurd hcmp (hno herr), hzero⟩
    exact absurd (he.symm.trans (hvalid.symm.trans hf)) Bool.false_ne_true
  · refine ⟨fun hv => ?_, fun he hf => ?_, fun _ he _ hm => ?_, hzero⟩
    · simp [hv]
    · have hm : prefixMatch s.digest s.target s.prec.toNat = true := by simpa [he] using hf
      simp [hcmp, hm, he]
    · simp [hm, he]

end Sys2Proof.Machine
end

section
/-! The opcode map and illegal words (30_encoding.md rules R63 and R64). A row is its mnemonic's opcode and the mask of its
format; it selects a word whose opcode is the row's and whose operand field is 0 under that mask, and the same two conditions
decide what `decode` answers and whether the word is illegal. -/

namespace Sys2Proof

open Machine

/-! ## The rows of the opcode map -/

/-- The bits of `imm` that rule R61 needs to be 0 in a format. -/
def Format.operandMask : Format → Word
  | .n => 0xFFFFFFFF
  | .b => 0xFFFFFF00
  | .w => 0

/-- The row that rule R63 gives a mnemonic. -/
def Mnemonic.row (m : Mnemonic) : OpcodeRow := ⟨m, opcode m ++ (0 : Word), (0xFF : Byte) ++ m.format.operandMask⟩

theorem row_mem_opcodeMap (m : Mnemonic) : m.row ∈ opcodeMap := by
  cases m <;> decide

theorem mem_opcodeMap_iff {r : OpcodeRow} : r ∈ opcodeMap ↔ ∃ m : Mnemonic, r = m.row := by
  constructor
  · have hrows : ∀ r ∈ opcodeMap, r = r.mnemonic.row := by decide
    exact fun hr => ⟨r.mnemonic, hrows r hr⟩
  · rintro ⟨m, rfl⟩
    exact row_mem_opcodeMap m

theorem opcode_injective {m m' : Mnemonic} (h : opcode m = opcode m') : m = m' := by
  have hrows : ∀ r ∈ opcodeMap, ∀ r' ∈ opcodeMap, opcode r.mnemonic = opcode r'.mnemonic → r = r' := by decide
  exact congrArg OpcodeRow.mnemonic (hrows _ (row_mem_opcodeMap m) _ (row_mem_opcodeMap m') h)

theorem mem_assignedOpcodes_iff {op : Byte} : op ∈ assignedOpcodes ↔ ∃ m, op = opcode m := by
  have hmap : assignedOpcodes = opcodeMap.map fun r => opcode r.mnemonic := by decide
  simp only [hmap, List.mem_map, mem_opcodeMap_iff]
  exact ⟨fun ⟨r, _, h⟩ => ⟨r.mnemonic, h.symm⟩, fun ⟨m, h⟩ => ⟨m.row, ⟨m, rfl⟩, h.symm⟩⟩

theorem opcode_mem_noOperandOpcodes_iff (m : Mnemonic) : opcode m ∈ noOperandOpcodes ↔ m.format = .n := by
  cases m <;> decide

theorem opcode_mem_byteOperandOpcodes_iff (m : Mnemonic) : opcode m ∈ byteOperandOpcodes ↔ m.format = .b := by
  cases m <;> decide

/-! ## The operand field under a format's mask -/

theorem and_operandMask_n (imm : Word) : imm &&& Format.n.operandMask = 0 ↔ imm = 0 := by
  rw [show Format.n.operandMask = BitVec.allOnes 32 from rfl, BitVec.and_allOnes]

theorem and_operandMask_b (imm : Word) : imm &&& Format.b.operandMask = 0 ↔ aboveByte imm = 0 := by
  constructor
  · intro h
    have hbits := congrArg aboveByte h
    rwa [aboveByte, BitVec.extractLsb'_and, show Format.b.operandMask.extractLsb' 8 24 = BitVec.allOnes 24 by decide,
      BitVec.and_allOnes] at hbits
  · intro h
    have hbyte : ∀ b : Byte, b.setWidth 32 &&& Format.b.operandMask = 0 := by decide
    rw [← setWidth_byteOf h, hbyte]

theorem and_operandMask_w (imm : Word) : imm &&& Format.w.operandMask = 0 := BitVec.and_zero

theorem extractLsb'_eq_aboveByte_immField (w : CmdWord) : w.extractLsb' 8 24 = aboveByte (immField w) :=
  (BitVec.extractLsb'_extractLsb'_of_le (by decide)).symm

/-- A row selects the words of its opcode whose operand field is 0 under the mask of its format. -/
theorem row_selects_iff {w : CmdWord} {m : Mnemonic} :
    w &&& m.row.mask = m.row.pattern ↔ opField w = opcode m ∧ immField w &&& m.format.operandMask = 0 := by
  have hword : w &&& m.row.mask = opField w ++ (immField w &&& m.format.operandMask) := by
    conv_lhs => rw [← word_eq_fields w]
    rw [Mnemonic.row, append_and, show (0xFF : Byte) = BitVec.allOnes 8 from rfl, BitVec.and_allOnes]
  rw [hword, Mnemonic.row]
  constructor
  · intro h
    exact ⟨by simpa using congrArg opField h, by simpa using congrArg immField h⟩
  · rintro ⟨hop, himm⟩
    rw [hop, himm]

theorem row_selects_unique {w : CmdWord} {m m' : Mnemonic} (h : w &&& m.row.mask = m.row.pattern)
    (h' : w &&& m'.row.mask = m'.row.pattern) : m = m' :=
  opcode_injective ((row_selects_iff.1 h).1.symm.trans (row_selects_iff.1 h').1)

/-! ## What a word decodes to -/

/-- The two answers rule R61 allows for an operand field under the opcode of `m`: a command of `m` when the field is 0 under
the mask of the format, and Illegal when it is not. -/
def Mnemonic.answers (m : Mnemonic) (imm : Word) (d : Decoded) : Prop :=
  (imm &&& m.format.operandMask = 0 ∧ ∃ i, d = .command i ∧ i.mnemonic = m) ∨
    (imm &&& m.format.operandMask ≠ 0 ∧ ∃ why, d = .illegal why)

theorem decodeN_answers {imm : Word} {m : Mnemonic} {i : Instr} (hi : i.mnemonic = m) (hf : m.format = .n) :
    m.answers imm (decodeN imm i) := by
  unfold Mnemonic.answers decodeN
  rw [hf, Ne, and_operandMask_n]
  split
  · exact .inl ⟨‹_›, i, rfl, hi⟩
  · exact .inr ⟨‹_›, _, rfl⟩

theorem decodeB_answers {imm : Word} {m : Mnemonic} {mk : Byte → Instr} (hmk : ∀ b, (mk b).mnemonic = m)
    (hf : m.format = .b) : m.answers imm (decodeB imm mk) := by
  unfold Mnemonic.answers decodeB
  rw [hf, Ne, and_operandMask_b]
  split
  · exact .inl ⟨‹_›, _, rfl, hmk _⟩
  · exact .inr ⟨‹_›, _, rfl⟩

theorem decodeW_answers {imm : Word} {m : Mnemonic} {mk : Word → Instr} (hmk : ∀ v, (mk v).mnemonic = m)
    (hf : m.format = .w) : m.answers imm (decodeW imm mk) :=
  .inl ⟨hf ▸ and_operandMask_w imm, _, rfl, hmk imm⟩

/-- A word under the opcode of `m` is decoded by the format of `m`. -/
theorem decode_answers {w : CmdWord} {m : Mnemonic} (hop : opField w = opcode m) : m.answers (immField w) (decode w) := by
  unfold decode
  rw [hop]
  cases m
  case mark | pad | splice | strip | cmp => exact decodeN_answers rfl rfl
  case putb | putc => exact decodeB_answers (fun _ => rfl) rfl
  case hdr | setnl | setnh | setd0 | setd1 | setd2 | setd3 | setd4 => exact decodeW_answers (fun _ => rfl) rfl

theorem decode_unassigned {w : CmdWord} (h : opField w ∉ assignedOpcodes) : decode w = .illegal .unknownOpcode := by
  unfold decode
  split
  case h_16 => rfl
  all_goals
    rename_i hop
    exact absurd (hop ▸ by decide) h

theorem decode_of_row_selects {w : CmdWord} {m : Mnemonic} (h : w &&& m.row.mask = m.row.pattern) :
    ∃ i, decode w = .command i ∧ i.mnemonic = m := by
  obtain ⟨hop, himm⟩ := row_selects_iff.1 h
  obtain ⟨-, hcommand⟩ | ⟨himm', -⟩ := decode_answers hop
  · exact hcommand
  · exact absurd himm himm'

theorem decode_of_no_row_selects {w : CmdWord} (h : ∀ m : Mnemonic, w &&& m.row.mask ≠ m.row.pattern) :
    ∃ why, decode w = .illegal why := by
  by_cases hop : opField w ∈ assignedOpcodes
  · obtain ⟨m, hm⟩ := mem_assignedOpcodes_iff.1 hop
    obtain ⟨himm, -⟩ | ⟨-, hillegal⟩ := decode_answers hm
    · exact absurd (row_selects_iff.2 ⟨hm, himm⟩) (h m)
    · exact hillegal
  · exact ⟨_, decode_unassigned hop⟩

theorem decode_command_iff_row_selects {w : CmdWord} {m : Mnemonic} :
    (∃ i, decode w = .command i ∧ i.mnemonic = m) ↔ w &&& m.row.mask = m.row.pattern := by
  refine ⟨?_, decode_of_row_selects⟩
  rintro ⟨i, hi, rfl⟩
  by_cases hrow : ∃ m : Mnemonic, w &&& m.row.mask = m.row.pattern
  · obtain ⟨m, hm⟩ := hrow
    obtain ⟨j, hj, rfl⟩ := decode_of_row_selects hm
    cases hi.symm.trans hj
    exact hm
  · obtain ⟨why, hwhy⟩ := decode_of_no_row_selects (not_exists.1 hrow)
    cases hi.symm.trans hwhy

/-! ## Illegal words -/

/-- Under an assigned opcode the three cases of rule R64 come down to the operand field. -/
theorem isIllegal_iff_of_opField {w : CmdWord} {m : Mnemonic} (hop : opField w = opcode m) :
    isIllegal w ↔ immField w &&& m.format.operandMask ≠ 0 := by
  have hassigned : opcode m ∈ assignedOpcodes := mem_assignedOpcodes_iff.2 ⟨m, rfl⟩
  rw [isIllegal, show w.extractLsb' 32 8 = opcode m from hop, show w.extractLsb' 0 32 = immField w from rfl,
    extractLsb'_eq_aboveByte_immField, opcode_mem_noOperandOpcodes_iff, opcode_mem_byteOperandOpcodes_iff, Ne]
  cases m.format with
  | n => simpa [hassigned] using not_congr (and_operandMask_n _).symm
  | b => simpa [hassigned] using not_congr (and_operandMask_b _).symm
  | w => simp [hassigned, and_operandMask_w]

theorem isIllegal_iff_no_row_selects {w : CmdWord} :
    isIllegal w ↔ ∀ m : Mnemonic, w &&& m.row.mask ≠ m.row.pattern := by
  constructor
  · intro h m hrow
    obtain ⟨hop, himm⟩ := row_selects_iff.1 hrow
    exact (isIllegal_iff_of_opField hop).1 h himm
  · intro h
    by_cases hop : opField w ∈ assignedOpcodes
    · obtain ⟨m, hm⟩ := mem_assignedOpcodes_iff.1 hop
      exact (isIllegal_iff_of_opField hm).2 fun himm => h m (row_selects_iff.2 ⟨hm, himm⟩)
    · exact .inl hop

theorem execWord_of_isIllegal {w : CmdWord} {s : State} (he : s.err = none) (h : isIllegal w) :
    execWord w s = .next (raise .illegalCommand w s) := by
  obtain ⟨why, hwhy⟩ := decode_of_no_row_selects (isIllegal_iff_no_row_selects.1 h)
  exact execWord_illegal he hwhy

/-- Of the 256 opcodes the assigned ones are the 15 of rule R64, case 1, each once. -/
theorem filter_assigned_perm :
    ((List.range 256).filter fun n => decide (BitVec.ofNat 8 n ∈ assignedOpcodes)).Perm
      (assignedOpcodes.map BitVec.toNat) := by
  refine (List.perm_ext_iff_of_nodup (List.nodup_range.filter _) (by decide)).2 fun n => ?_
  simp only [List.mem_filter, List.mem_range, decide_eq_true_eq, List.mem_map]
  constructor
  · rintro ⟨hn, hop⟩
    exact ⟨_, hop, by rw [BitVec.toNat_ofNat, Nat.mod_eq_of_lt hn]⟩
  · rintro ⟨op, hop, rfl⟩
    exact ⟨op.isLt, by rwa [BitVec.ofNat_toNat, BitVec.setWidth_eq]⟩

theorem length_filter_unassigned :
    ((List.range 256).filter fun n => decide (BitVec.ofNat 8 n ∉ assignedOpcodes)).length = 241 := by
  have hassigned := filter_assigned_perm.length_eq.trans (List.length_map ..)
  have hsplit := List.length_eq_length_filter_add (l := List.range 256)
    fun n => decide (BitVec.ofNat 8 n ∈ assignedOpcodes)
  simp only [← decide_not, List.length_range, hassigned, show assignedOpcodes.length = 15 from rfl] at hsplit
  omega

/-! ## The obligations of rules R63 and R64 -/

/-- Settles O3: every row is its mnemonic's row, and what such a row selects is what decodes to its mnemonic. -/
theorem opcodeMapSelectsCommands : Obligations.OpcodeMapSelectsCommands := by
  refine ⟨by decide, ?_, ?_, ?_⟩
  · intro r hr
    obtain ⟨m, rfl⟩ := mem_opcodeMap_iff.1 hr
    exact ⟨rfl, rfl⟩
  · intro w m
    rw [decode_command_iff_row_selects]
    constructor
    · exact fun hsel => ⟨m.row, row_mem_opcodeMap m, rfl, hsel⟩
    · rintro ⟨r, hr, rfl, hsel⟩
      obtain ⟨m, rfl⟩ := mem_opcodeMap_iff.1 hr
      exact hsel
  · intro w r hr r' hr' hsel hsel'
    obtain ⟨m, rfl⟩ := mem_opcodeMap_iff.1 hr
    obtain ⟨m', rfl⟩ := mem_opcodeMap_iff.1 hr'
    rw [row_selects_unique hsel hsel']

/-- Settles O4: the three cases of an illegal word are that no row selects it, so it decodes to no command and raises. -/
theorem illegalWordRaises : Obligations.IllegalWordRaises := by
  refine ⟨fun w => ?_, length_filter_unassigned, .inl (by decide), .inl (by decide),
    fun _ _ => execWord_of_isIllegal⟩
  rw [isIllegal_iff_no_row_selects]
  constructor
  · intro h r hr
    obtain ⟨m, rfl⟩ := mem_opcodeMap_iff.1 hr
    exact h m
  · exact fun h m => h m.row (row_mem_opcodeMap m)

end Sys2Proof
end

section
/-! Padding (40_padding.md rules R80 to R86): the bytes of the padded message, what PUTB and PAD answer when no fault was
recorded, and the obligations about them. -/

namespace Sys2Proof.Machine

open Sys2Proof

/-! ## The padded length (rule R80) -/

theorem padLen_of_gt {n : Nat} (h : n % 64 > 55) : padLen n = 64 * (n / 64 + 2) := by
  rw [padLen_eq]
  omega

theorem padLen_of_le {n : Nat} (h : n % 64 ≤ 55) : padLen n = 64 * (n / 64 + 1) := by
  rw [padLen_eq]
  omega

/-- `PadLen(n)` is the least multiple of 64 that holds `n` bytes and the nine of the mark and the length. -/
theorem padLen_le_of_mod {n p : Nat} (hp : p % 64 = 0) (h : n + 9 ≤ p) : padLen n ≤ p := by
  rw [padLen_eq]
  omega

/-! ## The bytes behind the data (rules R81 and R84) -/

theorem be64_getElem?_toNat (n : Nat) {j : Nat} (h : j ≤ 7) :
    ((be64 n)[j]?).map BitVec.toNat = some (n / 2 ^ (8 * (7 - j)) % 256) := by
  rw [be64_getElem? n (Nat.lt_succ_of_le h), Option.map_some, BitVec.toNat_ofNat]

theorem padTail_getElem?_mark (n : Nat) : (padTail n)[0]? = some 0x80 := rfl

theorem padTail_getElem?_zero {n i : Nat} (hi : 1 ≤ i) (h : i < padLen n - 8 - n) : (padTail n)[i]? = some 0x00 := by
  obtain ⟨k, rfl⟩ := Nat.exists_eq_add_of_le' hi
  rw [padTail, List.getElem?_cons_succ, List.getElem?_append_left (by rw [List.length_replicate]; omega),
    List.getElem?_replicate, if_pos (by omega)]

theorem padTail_getElem?_length (n j : Nat) : (padTail n)[padLen n - 8 - n + j]? = (be64 (8 * n))[j]? := by
  have hpos : padLen n - 8 - n + j = (padLen n - 9 - n + j) + 1 := by have := padLen_bounds n; omega
  rw [hpos, padTail, List.getElem?_cons_succ, List.getElem?_append_right (by rw [List.length_replicate]; omega),
    List.length_replicate, Nat.add_sub_cancel_left]

theorem pad_getElem?_data {d : List Byte} {a : Nat} (h : a < d.length) : (Machine.pad d)[a]? = d[a]? :=
  List.getElem?_append_left h

theorem pad_getElem?_tail (d : List Byte) (i : Nat) : (Machine.pad d)[d.length + i]? = (padTail d.length)[i]? := by
  rw [Machine.pad, List.getElem?_append_right (Nat.le_add_right ..), Nat.add_sub_cancel_left]

/-! ## The padding in the buffer (rules R85 and R86) -/

/-- The one store of `padTail` is the rule's three: they are adjacent (log entry 9). -/
theorem Memory.writeList_padTail (m : Memory) (n : Nat) :
    Memory.writeList m n (padTail n) =
      Memory.writeList
        (Memory.writeList (Memory.writeList m n [0x80]) (n + 1) (List.replicate (padLen n - 9 - n) 0x00))
        (padLen n - 8) (be64 (8 * n)) := by
  have hadjacent : n + 1 + (padLen n - 9 - n) = padLen n - 8 := by have := padLen_bounds n; omega
  calc Memory.writeList m n (padTail n)
    _ = Memory.writeList (Memory.writeList m n [0x80]) (n + 1)
          (List.replicate (padLen n - 9 - n) 0x00 ++ be64 (8 * n)) := rfl
    _ = _ := by rw [Memory.writeList_append, List.length_replicate, hadjacent]

/-- The mark and the bit length of `n` data bytes stand in the buffer where rule R86 has them. -/
structure PaddingStands (m : Memory) (n : Nat) : Prop where
  mark : Memory.read m n = some 0x80
  bitLength : Memory.readList m (padLen n - 8) 8 = some (be64 (8 * n))

theorem paddingStands_writeList_padTail (m : Memory) (n : Nat) :
    PaddingStands (Memory.writeList m n (padTail n)) n where
  mark := by
    have := padLen_bounds n
    rw [Memory.read_writeList, padTail_length, if_pos (by omega), Nat.sub_self, padTail_getElem?_mark]
  bitLength := by
    have hread := Memory.readList_writeList
      (Memory.writeList (Memory.writeList m n [0x80]) (n + 1) (List.replicate (padLen n - 9 - n) 0x00))
      (padLen n - 8) (be64 (8 * n))
    rwa [← Memory.writeList_padTail, be64_length] at hread

/-- A store into the data leaves the padding behind them as it is. -/
theorem PaddingStands.writeList_data {m : Memory} {n a : Nat} {bs : List Byte} (h : PaddingStands m n)
    (hdata : a + bs.length ≤ n) : PaddingStands (Memory.writeList m a bs) n where
  mark := by rw [Memory.read_writeList_outside (by omega), h.mark]
  bitLength := by
    have := padLen_bounds n
    rw [Memory.readList_writeList_outside (.inr (by omega)), h.bitLength]

/-! ## A command's answer by its check -/

theorem command_of_check_some {w : CmdWord} {check : Option Cause} {x : Cause} {s : State} {effect : Result}
    (he : s.err = none) (hc : check = some x) :
    command w check s effect = .next { s with err := some x, ecmd := w } := by
  rw [hc, command_raises he, raise]

theorem command_of_check_none {w : CmdWord} {check : Option Cause} {s : State} {effect : Result}
    (he : s.err = none) (hc : check = none) : command w check s effect = effect := by
  rw [hc, command_runs he]

theorem checkPutb_of_padded {s : State} (hp : s.padded = true) : checkPutb s = some .sequence := if_pos hp

theorem checkPutb_of_full {s : State} (hp : s.padded = false) (hl : s.len.toNat = s.capacity) :
    checkPutb s = some .overflow := by
  simp [checkPutb, hp, hl]

theorem checkPad_of_padded {s : State} (hp : s.padded = true) : checkPad s = some .sequence := if_pos hp

theorem checkPad_of_length_ne {s : State} (hp : s.padded = false) (hd : s.hdrDone = true)
    (hl : (s.len.toNat : Int) - s.hlen.toNat ≠ s.bodyLen.toNat) : checkPad s = some .lengthMismatch := by
  simp [checkPad, hp, hd, hl]

theorem checkPad_of_overflow {s : State} (hp : s.padded = false)
    (hl : s.hdrDone = true → (s.len.toNat : Int) - s.hlen.toNat = s.bodyLen.toNat)
    (hbig : padLen s.len.toNat > s.capacity) : checkPad s = some .overflow := by
  have hmatches : ¬ (s.hdrDone = true ∧ (s.len.toNat : Int) - s.hlen.toNat ≠ s.bodyLen.toNat) :=
    fun ⟨hd, hne⟩ => hne (hl hd)
  rw [checkPad, if_neg (by simp [hp]), if_neg hmatches, if_pos hbig]

/-! ## The effects of PUTB, PAD and SPLICE -/

theorem exec_putb_of_lt_capacity (b : Byte) {s : State} (he : s.err = none) (hp : s.padded = false)
    (hl : s.len.toNat < s.capacity) :
    exec (.putb b) s = .next { s with mb := Memory.writeList s.mb s.len.toNat [b], len := s.len + 1 } := by
  have hlen : s.len + 1 = BitVec.ofNat 32 (s.len.toNat + 1) := by simp [BitVec.ofNat_add]
  rw [hlen]
  exact (command_of_check_none he (checkPutb_eq_none.2 ⟨hp, hl.ne⟩)).trans (storing_fits hl)

theorem exec_pad_of_fits {s : State} (he : s.err = none) (hp : s.padded = false)
    (hl : s.hdrDone = true → (s.len.toNat : Int) - s.hlen.toNat = s.bodyLen.toNat)
    (hfit : padLen s.len.toNat ≤ s.capacity) :
    exec .pad s = .next
      { s with
        mb := Memory.writeList s.mb s.len.toNat (padTail s.len.toNat)
        plen := BitVec.ofNat 32 (padLen s.len.toNat)
        padded := true } := by
  have hstore : s.len.toNat + (padTail s.len.toNat).length ≤ s.capacity := by
    have := padLen_bounds s.len.toNat
    rw [padTail_length]
    omega
  exact (command_of_check_none he (checkPad_eq_none.2 ⟨hp, hl, hfit⟩)).trans (storing_fits hstore)

theorem exec_splice_of_marked {s : State} (he : s.err = none) (hm : s.marked = true)
    (hfit : s.poff.toNat + 16 ≤ s.capacity) :
    exec .splice s = .next { s with mb := Memory.writeList s.mb s.poff.toNat (hex16 s.nonce) } :=
  (command_of_check_none he (checkSplice_eq_none.2 hm)).trans (storing_fits (by rwa [hex16_length]))

/-- A format B word: the opcode, 24 zero bits and the byte operand (30_encoding.md rule R61). -/
theorem append_setWidth_byte (op b : Byte) : op ++ b.setWidth 32 = op ++ (0 : BitVec 24) ++ b := by
  rw [BitVec.append_assoc, BitVec.setWidth_eq_append (by decide)]
  rfl

/-! ## The obligations of rules R80 to R86 -/

/-- Settles O13: the two forms and the minimality are those of the closed form `padLen_eq`. -/
theorem paddedLength : Obligations.PaddedLength := by
  refine ⟨fun n => ?_, by decide⟩
  obtain ⟨hroom, -, hmod⟩ := padLen_bounds n
  exact ⟨padLen_of_gt, padLen_of_le, padLen_eq n, hmod, hroom, fun _ => padLen_le_of_mod⟩

/-- Settles O14: behind the data the padded message is `padTail`, whose three parts are the rule's last three ranges. -/
theorem paddedMessageBytes : Obligations.PaddedMessageBytes := by
  intro d
  have hroom := padLen_bounds d.length
  refine ⟨pad_length d, fun a => pad_getElem?_data, pad_getElem?_tail d 0, fun a hge hlt => ?_, fun j _ => ?_⟩
  · obtain ⟨i, rfl⟩ := Nat.exists_eq_add_of_le (Nat.le_of_succ_le hge)
    rw [pad_getElem?_tail, padTail_getElem?_zero (by omega) (by omega)]
  · have hpos : padLen d.length - 8 + j = d.length + (padLen d.length - 8 - d.length + j) := by omega
    rw [hpos, pad_getElem?_tail, padTail_getElem?_length]

/-- Settles O15: each byte of `be64` is a quotient, read as eight bits. -/
theorem bigEndianEightBytes : Obligations.BigEndianEightBytes :=
  ⟨fun n _ => ⟨be64_length n, fun _ => be64_getElem?_toNat n⟩, by decide, by decide⟩

/-- Settles O23: the check of PUTB by cases; one more byte than `LEN` still fits a register since the capacity does. -/
theorem putbAppendsByte : Obligations.PutbAppendsByte := by
  intro b s he
  refine ⟨fun hp hl => ⟨exec_putb_of_lt_capacity b he hp hl, ?_⟩,
    fun hp => command_of_check_some he (checkPutb_of_padded hp),
    fun hp hl => command_of_check_some he (checkPutb_of_full hp hl), append_setWidth_byte 0x02 b⟩
  have := s.capacity_bounds
  bv_omega

/-- Settles O25: the check of PAD by cases; its store of `padTail` is the rule's three stores. -/
theorem padWritesPadding : Obligations.PadWritesPadding := by
  intro s he
  refine ⟨fun hp hl hfit => ?_, fun hp => command_of_check_some he (checkPad_of_padded hp),
    fun hp hd hl => command_of_check_some he (checkPad_of_length_ne hp hd hl),
    fun hp hl hbig => command_of_check_some he (checkPad_of_overflow hp hl hbig), by decide⟩
  rw [exec_pad_of_fits he hp hl hfit, Memory.writeList_padTail]

/-- Settles O32: PAD puts the padding behind the data, and a SPLICE stores inside the data only. -/
theorem padLaws : Obligations.PadLaws := by
  intro s he hp hl hfit
  have hroom := padLen_bounds s.len.toNat
  have hplen := State.toNat_ofNat_of_le_capacity hfit
  have hstands := paddingStands_writeList_padTail s.mb s.len.toNat
  refine ⟨_, exec_pad_of_fits he hp hl hfit, he, fun u hu => ?_⟩
  obtain ⟨m, rfl, hm⟩ : ∃ m, u = { s with mb := m, plen := BitVec.ofNat 32 (padLen s.len.toNat), padded := true } ∧
      PaddingStands m s.len.toNat := by
    rcases hu with rfl | ⟨hmarked, hin, hsplice⟩
    · exact ⟨_, rfl, hstands⟩
    · have hinside : s.poff.toNat + 16 ≤ s.capacity := by omega
      cases hsplice.symm.trans (exec_splice_of_marked he hmarked hinside)
      exact ⟨_, rfl, hstands.writeList_data (by rwa [hex16_length])⟩
  dsimp only
  rw [hplen]
  exact ⟨rfl, hm.bitLength, hm.mark, by omega, by omega, by omega⟩

end Sys2Proof.Machine
end

section
/-! The five-word number, the target encoder and the match (41_target_match.md rules R90, R93 to R95 and R102). Both sides
of a comparison are read bit by bit from the most significant bit on; a word, a byte and a hexadecimal digit of the number are
fields of it that lie inside one word. -/

namespace Sys2Proof.Machine

open Sys2Proof

/-! ## Bits counted from the most significant one -/

/-- Quotients by `2^(w-p)` compare the top `p` bits. -/
theorem div_two_pow_eq_iff_top_bits {w p : Nat} (hp : p ≤ w) (x y : BitVec w) :
    x.toNat / 2 ^ (w - p) = y.toNat / 2 ^ (w - p) ↔ ∀ b, b < p → x.getLsbD (w - 1 - b) = y.getLsbD (w - 1 - b) := by
  constructor
  · intro h b hb
    have hbit := congrArg (Nat.testBit · (p - 1 - b)) h
    simp only [Nat.testBit_div_two_pow, BitVec.testBit_toNat] at hbit
    rwa [show p - 1 - b + (w - p) = w - 1 - b by omega] at hbit
  · intro h
    refine Nat.eq_of_testBit_eq fun i => ?_
    rw [Nat.testBit_div_two_pow, Nat.testBit_div_two_pow, BitVec.testBit_toNat, BitVec.testBit_toNat]
    by_cases hi : i < p
    · have hbit := h (p - 1 - i) (by omega)
      rwa [show w - 1 - (p - 1 - i) = i + (w - p) by omega] at hbit
    · rw [BitVec.getLsbD_of_ge _ _ (by omega), BitVec.getLsbD_of_ge _ _ (by omega)]

theorem eq_of_top_bits {w : Nat} {x y : BitVec w} (h : ∀ b, b < w → x.getLsbD (w - 1 - b) = y.getLsbD (w - 1 - b)) :
    x = y := by
  refine BitVec.eq_of_getLsbD_eq fun i hi => ?_
  have hbit := h (w - 1 - i) (by omega)
  rwa [show w - 1 - (w - 1 - i) = i by omega] at hbit

/-- The mask of the bits from `n` on. -/
theorem getLsbD_highMask {w n i : Nat} (hn : n ≤ w) (hi : i < w) :
    (BitVec.ofNat w (2 ^ w - 2 ^ n)).getLsbD i = decide (n ≤ i) := by
  have hsub : 2 ^ w - 2 ^ n = 2 ^ w - ((2 ^ n - 1) + 1) := by rw [Nat.sub_add_cancel Nat.one_le_two_pow]
  have hlt : 2 ^ n - 1 < 2 ^ w :=
    (Nat.sub_lt Nat.one_le_two_pow Nat.one_pos).trans_le (Nat.pow_le_pow_right Nat.two_pos hn)
  rw [BitVec.getLsbD_ofNat, hsub, Nat.testBit_two_pow_sub_succ hlt, Nat.testBit_two_pow_sub_one, decide_eq_true hi,
    Bool.true_and, Bool.true_and, ← decide_not, decide_eq_decide, Nat.not_lt]

/-! ## The five words as one number (rule R93) -/

theorem w160_toNat (x : Words5) :
    (w160 x).toNat =
      x.w0.toNat * 2 ^ 128 + x.w1.toNat * 2 ^ 96 + x.w2.toNat * 2 ^ 64 + x.w3.toNat * 2 ^ 32 + x.w4.toNat := by
  unfold w160
  erw [toNat_append_eq_add, toNat_append_eq_add, toNat_append_eq_add, toNat_append_eq_add]
  ring

theorem w160_top_bit (x : Words5) {b : Nat} (hb : b < 160) :
    (w160 x).getLsbD (159 - b) = (x.get (b / 32)).getLsbD (31 - b % 32) := by
  rw [w160_getLsbD x (by omega), show 4 - (159 - b) / 32 = b / 32 by omega,
    show (159 - b) % 32 = 31 - b % 32 by omega]

/-- A field of the number that lies inside word `j` is a field of that word. -/
theorem w160_extractLsb' (x : Words5) {j o n : Nat} (hj : j ≤ 4) (ho : o + n ≤ 32) :
    (w160 x).extractLsb' (32 * (4 - j) + o) n = (x.get j).extractLsb' o n := by
  refine BitVec.eq_of_getLsbD_eq fun i hi => ?_
  rw [BitVec.getLsbD_extractLsb', BitVec.getLsbD_extractLsb', w160_getLsbD x (by omega),
    show 4 - (32 * (4 - j) + o + i) / 32 = j by omega, show (32 * (4 - j) + o + i) % 32 = o + i by omega]

/-- A word made of four bytes has them in order, the first in bits 31:24. -/
theorem extractLsb'_fourBytes (g : Nat → Byte) (j : Nat) {r : Nat} (hr : r < 4) :
    (g (4 * j) ++ g (4 * j + 1) ++ g (4 * j + 2) ++ g (4 * j + 3)).extractLsb' (24 - 8 * r) 8 = g (4 * j + r) := by
  obtain rfl | rfl | rfl | rfl : r = 0 ∨ r = 1 ∨ r = 2 ∨ r = 3 := by omega
  · rw [BitVec.extractLsb'_append_eq_of_le (by decide), BitVec.extractLsb'_append_eq_of_le (by decide),
      BitVec.extractLsb'_append_eq_left, Nat.add_zero]
  · rw [BitVec.extractLsb'_append_eq_of_le (by decide), BitVec.extractLsb'_append_eq_of_le (by decide)]
    exact BitVec.extractLsb'_append_eq_right
  · rw [BitVec.extractLsb'_append_eq_of_le (by decide)]
    exact BitVec.extractLsb'_append_eq_right
  · exact BitVec.extractLsb'_append_eq_right

theorem w160_byte {x : Words5} {g : Nat → Byte}
    (hg : ∀ i, i ≤ 4 → x.get i = g (4 * i) ++ g (4 * i + 1) ++ g (4 * i + 2) ++ g (4 * i + 3)) {k : Nat} (hk : k < 20) :
    (w160 x).extractLsb' (152 - 8 * k) 8 = g k := by
  rw [show 152 - 8 * k = 32 * (4 - k / 4) + (24 - 8 * (k % 4)) by omega, w160_extractLsb' x (by omega) (by omega),
    hg _ (by omega), extractLsb'_fourBytes g _ (by omega), Nat.div_add_mod]

/-! ## Hexadecimal digits of the number (rules R90 and R93) -/

/-- Hexadecimal digit `k` of five words, digit 0 the most significant (rule R90). -/
def Words5.digit (x : Words5) (k : Nat) : BitVec 4 := (x.get (k / 8)).extractLsb' (28 - 4 * (k % 8)) 4

theorem w160_digit (x : Words5) {k : Nat} (hk : k < 40) : (w160 x).extractLsb' (156 - 4 * k) 4 = x.digit k := by
  rw [show 156 - 4 * k = 32 * (4 - k / 8) + (28 - 4 * (k % 8)) by omega, w160_extractLsb' x (by omega) (by omega),
    Words5.digit]

theorem digit_top_bit (x : Words5) {k r : Nat} (hk : k < 40) (hr : r < 4) :
    (x.digit k).getLsbD (3 - r) = (w160 x).getLsbD (159 - (4 * k + r)) := by
  rw [← w160_digit x hk, BitVec.getLsbD_extractLsb', decide_eq_true (by omega), Bool.true_and,
    show 156 - 4 * k + (3 - r) = 159 - (4 * k + r) by omega]

@[simp] theorem hexval_hexL (v : BitVec 4) : hexval (hexL v) = some v := by
  revert v
  decide

theorem hexL_injective : Function.Injective hexL := fun u v h => by simpa using congrArg hexval h

theorem lowerHex_of_hexval {c : Byte} {v : BitVec 4} (h : hexval c = some v) : lowerHex c = hexL v := by
  have htable : ∀ c : Byte, (hexval c).map (fun _ => lowerHex c) = (hexval c).map hexL := by decide
  simpa [h] using htable c

theorem hexString_length (x : Words5) : (hexString x).length = 40 := by simp [hexString]

theorem hexString_getElem? (x : Words5) {k : Nat} (hk : k < 40) : (hexString x)[k]? = some (hexL (x.digit k)) := by
  simp [hexString, hk, w160_digit x hk]

/-! ## The target encoder (rule R90) -/

/-- The Target whose hexadecimal digits are `h`, digit 0 the most significant. -/
def digitsTarget (h : Nat → BitVec 4) : Words5 :=
  ⟨wordOfDigits h 0, wordOfDigits h 1, wordOfDigits h 2, wordOfDigits h 3, wordOfDigits h 4⟩

theorem digitsTarget_get (h : Nat → BitVec 4) {j : Nat} (hj : j ≤ 4) : (digitsTarget h).get j = wordOfDigits h j := by
  interval_cases j <;> rfl

theorem digitsTarget_digit (h : Nat → BitVec 4) {k : Nat} (hk : k < 40) : (digitsTarget h).digit k = h k := by
  rw [Words5.digit, digitsTarget_get h (by omega), wordOfDigits_digit h _ (by omega), Nat.div_add_mod]

theorem prefixDigit_of_lt {s : List Byte} {i : Nat} (hi : i < s.length) : prefixDigit s i = (hexval s[i]).getD 0 := by
  rw [prefixDigit, List.getElem?_eq_getElem hi, Option.bind_some]

theorem prefixDigit_of_ge {s : List Byte} {i : Nat} (hi : s.length ≤ i) : prefixDigit s i = 0 := by
  rw [prefixDigit, List.getElem?_eq_none hi]
  rfl

theorem targetEncode_of_invalid {s : List Byte} (h : s.length > 40 ∨ ∃ c ∈ s, hexval c = none) :
    targetEncode s = none := by
  unfold targetEncode
  split
  case isTrue => rfl
  case isFalse hlen => rw [if_pos (by simpa using h.resolve_left hlen)]

theorem targetEncode_of_valid {s : List Byte} (hlen : s.length ≤ 40) (hhex : ∀ c ∈ s, hexval c ≠ none) :
    targetEncode s = some (digitsTarget (prefixDigit s), 4 * s.length) := by
  rw [targetEncode, if_neg (by omega), if_neg (by simpa using hhex)]
  rfl

/-- Accepted characters are at most 40, all hexadecimal, and the Target has their digits. -/
theorem targetEncode_eq_some {s : List Byte} {t : Words5} {p : Nat} (h : targetEncode s = some (t, p)) :
    s.length ≤ 40 ∧ (∀ c ∈ s, hexval c ≠ none) ∧ t = digitsTarget (prefixDigit s) ∧ p = 4 * s.length := by
  by_cases hinvalid : s.length > 40 ∨ ∃ c ∈ s, hexval c = none
  · cases (targetEncode_of_invalid hinvalid).symm.trans h
  · push Not at hinvalid
    obtain ⟨hlen, hhex⟩ := hinvalid
    cases (targetEncode_of_valid hlen hhex).symm.trans h
    exact ⟨hlen, hhex, rfl, rfl⟩

/-! ## The match (rules R94, R95 and R102) -/

theorem prefixMatch_iff_top_bits {d t : Words5} {p : Nat} (hp : p ≤ 160) :
    prefixMatch d t p = true ↔ ∀ b, b < p → (w160 d).getLsbD (159 - b) = (w160 t).getLsbD (159 - b) :=
  beq_iff_eq.trans (div_two_pow_eq_iff_top_bits hp _ _)

theorem prefixMatch_iff_words {d t : Words5} {p : Nat} (hp : p ≤ 160) :
    prefixMatch d t p = true ↔
      (∀ i, i < p / 32 → d.get i = t.get i) ∧
        (0 < p % 32 → (d.get (p / 32)).toNat / 2 ^ (32 - p % 32) = (t.get (p / 32)).toNat / 2 ^ (32 - p % 32)) := by
  rw [prefixMatch_iff_top_bits hp, div_two_pow_eq_iff_top_bits (Nat.mod_lt p (by decide)).le]
  constructor
  · intro h
    have hword : ∀ i r, r < 32 → 32 * i + r < p → (d.get i).getLsbD (31 - r) = (t.get i).getLsbD (31 - r) := by
      intro i r hr hlt
      have hbit := h (32 * i + r) hlt
      rwa [w160_top_bit d (by omega), w160_top_bit t (by omega), show (32 * i + r) / 32 = i by omega,
        show (32 * i + r) % 32 = r by omega] at hbit
    exact ⟨fun i hi => eq_of_top_bits fun r hr => hword i r hr (by omega),
      fun _ r hr => hword (p / 32) r (by omega) (by omega)⟩
  · rintro ⟨hwords, hlast⟩ b hb
    rw [w160_top_bit d (by omega), w160_top_bit t (by omega)]
    by_cases hfull : b / 32 < p / 32
    · rw [hwords _ hfull]
    · rw [show b / 32 = p / 32 by omega]
      exact hlast (by omega) (b % 32) (by omega)

theorem prefixMatch_160_iff {d t : Words5} : prefixMatch d t 160 = true ↔ d = t := by
  rw [prefixMatch_iff_words le_rfl]
  constructor
  · exact fun ⟨hwords, _⟩ => Words5.ext_get fun j hj => hwords j (by omega)
  · rintro rfl
    exact ⟨fun _ _ => rfl, fun _ => rfl⟩

/-- A Target that is 0 below its precision is what the mask leaves of every digest it matches. -/
theorem prefixMatch_iff_masked {d t : Words5} {p : Nat} (hp : p ≤ 160) (hlow : (w160 t).toNat % 2 ^ (160 - p) = 0) :
    prefixMatch d t p = true ↔ w160 d &&& BitVec.ofNat 160 (2 ^ 160 - 2 ^ (160 - p)) = w160 t := by
  rw [toNat_mod_two_pow_eq_zero_iff] at hlow
  rw [prefixMatch_iff_top_bits hp, BitVec.eq_of_getLsbD_eq_iff]
  have hmask : ∀ i, i < 160 → (w160 d &&& BitVec.ofNat 160 (2 ^ 160 - 2 ^ (160 - p))).getLsbD i =
      ((w160 d).getLsbD i && decide (160 - p ≤ i)) := fun i hi => by
    rw [BitVec.getLsbD_and, getLsbD_highMask (by omega) hi]
  constructor
  · intro h i hi
    rw [hmask i hi]
    by_cases hhigh : 160 - p ≤ i
    · have hbit := h (159 - i) (by omega)
      rw [show 159 - (159 - i) = i by omega] at hbit
      rw [hbit, decide_eq_true hhigh, Bool.and_true]
    · rw [hlow i (by omega), decide_eq_false hhigh, Bool.and_false]
  · intro h b hb
    rw [← h _ (by omega), hmask _ (by omega), decide_eq_true (by omega), Bool.and_true]

/-- With whole hexadecimal digits the match compares digits. -/
theorem prefixMatch_iff_digits {d t : Words5} {n : Nat} (hn : n ≤ 40) :
    prefixMatch d t (4 * n) = true ↔ ∀ k, k < n → d.digit k = t.digit k := by
  rw [prefixMatch_iff_top_bits (by omega)]
  constructor
  · intro h k hk
    refine eq_of_top_bits fun r hr => ?_
    rw [digit_top_bit d (by omega) hr, digit_top_bit t (by omega) hr, h _ (by omega)]
  · intro h b hb
    have hdigit := congrArg (BitVec.getLsbD · (3 - b % 4)) (h (b / 4) (by omega))
    simp only [digit_top_bit _ (show b / 4 < 40 by omega) (Nat.mod_lt b (by decide)), Nat.div_add_mod] at hdigit
    exact hdigit

/-- Against an encoded Target, comparing digits is comparing the characters it was encoded from (rule R102). -/
theorem prefixMatch_iff_isPrefix {s : List Byte} {t : Words5} {p : Nat} (d : Words5) (h : targetEncode s = some (t, p)) :
    prefixMatch d t p = true ↔ s.map lowerHex <+: hexString d := by
  obtain ⟨hlen, hhex, rfl, rfl⟩ := targetEncode_eq_some h
  rw [prefixMatch_iff_digits hlen, List.prefix_iff_getElem?]
  simp only [List.length_map]
  refine forall₂_congr fun k hk => ?_
  obtain ⟨v, hv⟩ := Option.ne_none_iff_exists'.1 (hhex s[k] (List.getElem_mem hk))
  rw [hexString_getElem? d (by omega), List.getElem_map, lowerHex_of_hexval hv, Option.some_inj, hexL_injective.eq_iff,
    digitsTarget_digit _ (by omega), prefixDigit_of_lt hk, hv, Option.getD_some]

/-! ## The obligations of rules R90, R93 to R95 and R102 -/

/-- Settles O16: the two cases of `targetEncode`, and the digits of its Target below and from the string's length on. -/
theorem targetEncodeDigits : Obligations.TargetEncodeDigits := by
  refine fun s => ⟨targetEncode_of_invalid, fun hlen hhex => ⟨_, targetEncode_of_valid hlen hhex, fun i c hc => ?_,
    fun i hge hlt => ?_⟩⟩
  · obtain ⟨hi, rfl⟩ := List.getElem?_eq_some_iff.1 hc
    obtain ⟨v, hv⟩ := Option.ne_none_iff_exists'.1 (hhex s[i] (List.getElem_mem hi))
    have hdigit := digitsTarget_digit (prefixDigit s) (show i < 40 by omega)
    rw [prefixDigit_of_lt hi, hv, Option.getD_some] at hdigit
    exact hv.trans (congrArg some hdigit.symm)
  · exact (digitsTarget_digit (prefixDigit s) hlt).trans (prefixDigit_of_ge hge)

/-- Settles O17: the value and the bits of `w160`, and its bytes and digits as fields inside one word. -/
theorem fiveWordsAsNumber : Obligations.FiveWordsAsNumber := by
  refine fun x => ⟨w160_toNat x, fun b hb => w160_top_bit x (by omega), fun g hg k => w160_byte hg, hexString_length x,
    fun k hk => ?_⟩
  rw [hexString_getElem? x hk, Option.bind_some, hexval_hexL, w160_digit x hk]

/-- Settles O18: the definition by quotients, the bits that a quotient keeps, and the two extreme precisions. -/
theorem matchComparesTopBits : Obligations.MatchComparesTopBits := fun _ _ =>
  ⟨fun _ _ => beq_iff_eq, fun _ => prefixMatch_iff_top_bits,
    (prefixMatch_iff_top_bits (Nat.zero_le _)).2 fun _ hb => absurd hb (Nat.not_lt_zero _), prefixMatch_160_iff⟩

/-- Settles O19: the top bits taken word by word, and the top bits under the mask. -/
theorem matchWordByWord : Obligations.MatchWordByWord := fun _ _ _ hp =>
  ⟨prefixMatch_iff_words hp, prefixMatch_iff_masked hp⟩

/-- Settles O20: the match of whole digits is a match of characters; a CMP that fills the slot made a match. -/
theorem matchIsStringPrefix : Obligations.MatchIsStringPrefix := by
  refine ⟨fun _ _ _ d => prefixMatch_iff_isPrefix d, fun s t h hempty hfilled => ?_⟩
  obtain ⟨-, rfl⟩ | ⟨-, -, rfl⟩ := execCmp_next h
  · exact absurd (hempty.symm.trans hfilled) Bool.false_ne_true
  · have hmatch : prefixMatch s.digest s.target s.prec.toNat = true := by simpa [hempty] using hfilled
    exact ⟨by simp [hmatch, hempty], hmatch⟩

end Sys2Proof.Machine
end

section
/-! PUTC, CMP and SETD0 to SETD4 (41_target_match.md rules R91 and R96 to R101): what each answers when no fault was
recorded, and the obligations about them. -/

namespace Sys2Proof.Machine

open Sys2Proof

/-! ## PUTC (rule R91) -/

theorem putTargetDigit_get_same (t : Words5) {k : Nat} (hk : k < 40) (d : BitVec 4) :
    (putTargetDigit t k d).get (k / 8) = setDigit (t.get (k / 8)) (digitShift k) d := by
  rw [putTargetDigit, Words5.get_set t _ (by omega) (by omega), if_pos rfl]

theorem putTargetDigit_get_other (t : Words5) {j k : Nat} (hk : k < 40) (hj : j ≤ 4) (hne : j ≠ k / 8) (d : BitVec 4) :
    (putTargetDigit t k d).get j = t.get j := by
  rw [putTargetDigit, Words5.get_set t _ (by omega) hj, if_neg hne]

theorem checkPutc_of_locked (c : Byte) {s : State} (hl : s.tlock = true) : checkPutc c s = some .sequence := if_pos hl

theorem checkPutc_of_invalid {c : Byte} {s : State} (hl : s.tlock = false) (h : s.prec = 160 ∨ hexval c = none) :
    checkPutc c s = some .invalidPrefix := by
  rw [checkPutc, if_neg (by simp [hl])]
  obtain hfull | hother := h
  · rw [hfull]
    rfl
  · simp [hother]

theorem exec_putc_of_hexval {c : Byte} {d : BitVec 4} {s : State} (he : s.err = none) (hl : s.tlock = false)
    (hp : s.prec.toNat < 160) (hd : hexval c = some d) : exec (.putc c) s = .next (recordDigit d s) := by
  refine (command_of_check_none he (checkPutc_eq_none.2 ⟨hl, hp.ne, d, hd⟩)).trans ?_
  rw [withPrecision_runs hp.le, hd]

/-! ## CMP (rule R101) -/

theorem exec_cmp_of_prec {s : State} (he : s.err = none) (hp : s.prec.toNat ≤ 160) :
    exec .cmp s = .next (recordMatch (prefixMatch s.digest s.target s.prec.toNat) s) :=
  (command_runs (w := encode .cmp) he).trans (withPrecision_runs hp)

theorem recordMatch_true_of_empty {s : State} (hv : s.rvalid = false) :
    recordMatch true s = { s with matched := true, tlock := true, rvalid := true, result := s.nonce } := by
  simp [recordMatch, hv]

theorem recordMatch_true_of_filled {s : State} (hv : s.rvalid = true) :
    recordMatch true s = { s with matched := true, tlock := true } := by
  simp [recordMatch, hv]

theorem recordMatch_false (s : State) : recordMatch false s = { s with matched := false, tlock := true } := by
  simp [recordMatch]

/-! ## SETD0 to SETD4 (rules R96 to R100) -/

theorem setDigestWord_runs (w : CmdWord) (i : Nat) (v : Word) {s : State} (he : s.err = none) :
    setDigestWord w i v s = .next { s with digest := s.digest.set i v } :=
  command_runs he

/-! ## The obligations of rules R91 and R96 to R101 -/

/-- Settles O29: the check of PUTC by cases; its effect replaces one digit of one word. -/
theorem putcEntersDigit : Obligations.PutcEntersDigit := by
  intro c s he
  refine ⟨fun d hl hp hd => ⟨_, exec_putc_of_hexval he hl hp hd, rfl, ?_⟩,
    fun hl => command_of_check_some he (checkPutc_of_locked c hl),
    fun hl h => command_of_check_some he (checkPutc_of_invalid hl h), append_setWidth_byte 0x20 c⟩
  rw [recordDigit_prec, recordDigit_target, BitVec.toNat_ofNat, putTargetDigit_get_same _ (by omega), digitShift]
  refine ⟨Nat.mod_eq_of_lt (by omega), setDigit_digit _ (by omega) d, fun b hb hout => ?_, fun j hj hne => ?_⟩
  · rw [setDigit_getLsbD _ d hb, if_neg (by omega)]
  · exact putTargetDigit_get_other _ (by omega) hj hne d

/-- Settles O30: CMP records its comparison, by the three cases of `recordMatch`. -/
theorem cmpRecordsMatch : Obligations.CmpRecordsMatch := by
  intro s he hp
  rw [exec_cmp_of_prec he hp]
  refine ⟨fun hm hv => ?_, fun hm hv => ?_, fun hm => ?_, by decide⟩
  · rw [hm, recordMatch_true_of_empty hv]
  · rw [hm, recordMatch_true_of_filled hv]
  · rw [hm, recordMatch_false]

/-- Settles O31: the five commands by their shared effect. -/
theorem digestWordsWritten : Obligations.DigestWordsWritten := fun v _ he =>
  ⟨setDigestWord_runs (encode (.setd0 v)) 0 v he, setDigestWord_runs (encode (.setd1 v)) 1 v he,
    setDigestWord_runs (encode (.setd2 v)) 2 v he, setDigestWord_runs (encode (.setd3 v)) 3 v he,
    setDigestWord_runs (encode (.setd4 v)) 4 v he, rfl, rfl, rfl, rfl, rfl⟩

end Sys2Proof.Machine
end

section
/-! Framing (42_framing.md rules R110 to R113): the header's bytes, what HDR and MARK answer when no fault was recorded,
the data that a run of appending commands leaves in the buffer, and the obligations about them. -/

namespace Sys2Proof.Machine

open Sys2Proof

/-! ## The header (rule R110) -/

theorem commitHeader_getElem?_eq_zero_iff (n : Word) (i : Nat) :
    (commitHeader n)[i]? = some 0x00 ↔ i + 1 = (commitHeader n).length := by
  obtain ⟨front, hfront, -, hnz⟩ := commitHeader_split n
  rw [hfront, List.length_append, List.length_singleton, Nat.add_left_inj]
  rcases Nat.lt_trichotomy i front.length with hlt | rfl | hgt
  · rw [List.getElem?_append_left hlt, List.getElem?_eq_getElem hlt]
    exact iff_of_false (fun h0 => hnz _ (List.getElem_mem hlt) (Option.some.inj h0)) hlt.ne
  · exact iff_of_true List.getElem?_concat_length rfl
  · rw [List.getElem?_eq_none (by rw [List.length_append, List.length_singleton]; omega)]
    exact iff_of_false (Option.some_ne_none _).symm hgt.ne'

/-- The smallest buffer is longer than the longest header (00_scope.md rule R5). -/
theorem commitHeader_length_le_capacity (n : Word) (s : State) : (commitHeader n).length ≤ s.capacity := by
  have := commitHeader_length_bounds n
  have := s.capacity_bounds
  omega

/-! ## The checks of HDR and MARK -/

theorem checkHdr_of_sequence {s : State} (h : s.padded = true ∨ s.len ≠ 0) : checkHdr s = some .sequence := if_pos h

theorem checkMark_of_sequence {s : State} (h : s.padded = true ∨ s.marked = true) : checkMark s = some .sequence :=
  if_pos h

theorem checkMark_of_overflow {s : State} (hp : s.padded = false) (hm : s.marked = false)
    (hbig : s.len.toNat + 16 > s.capacity) : checkMark s = some .overflow := by
  rw [checkMark, if_neg (by simp [hp, hm])]
  exact if_pos hbig

/-! ## The effects of HDR, PUTB and MARK -/

/-- The bytes `bs` stored behind the data and counted as data. -/
def appendData (bs : List Byte) (s : State) : State := appendBytes s.len.toNat bs s

/-- What HDR `n` writes (rule R111). -/
def writeHeader (n : Word) (s : State) : State :=
  { s with
    mb := Memory.writeList s.mb 0 (commitHeader n)
    len := BitVec.ofNat 32 (commitHeader n).length
    hlen := BitVec.ofNat 32 (commitHeader n).length
    bodyLen := n
    hdrDone := true }

/-- The registers MARK writes beside the length, for a placeholder at `p` (rule R112). -/
def recordPlaceholder (p : Word) (s : State) : State := { s with poff := p, marked := true }

/-- What MARK writes (rule R112). -/
def reservePlaceholder (s : State) : State := recordPlaceholder s.len (appendData (List.replicate 16 0x46) s)

theorem reservePlaceholder_eq (s : State) :
    reservePlaceholder s =
      { s with
        mb := Memory.writeList s.mb s.len.toNat (List.replicate 16 0x46)
        poff := s.len
        len := s.len + 16
        marked := true } := by
  have hlen : BitVec.ofNat 32 (s.len.toNat + 16) = s.len + 16 := by simp [BitVec.ofNat_add]
  rw [reservePlaceholder, recordPlaceholder, appendData, appendBytes, List.length_replicate, hlen]

theorem appendData_nil (s : State) : appendData [] s = s := by
  rw [appendData, appendBytes, List.length_nil, Nat.add_zero, BitVec.ofNat_toNat, BitVec.setWidth_eq, Memory.writeList]

theorem appendData_append (as bs : List Byte) {s : State} (hfit : s.len.toNat + as.length ≤ s.capacity) :
    appendData (as ++ bs) s = appendData bs (appendData as s) := by
  have hlen : (appendData as s).len.toNat = s.len.toNat + as.length := State.toNat_ofNat_of_le_capacity hfit
  rw [appendData, appendData, hlen, appendBytes, Memory.writeList_append, List.length_append, ← Nat.add_assoc]
  rfl

theorem exec_hdr_of_empty (n : Word) {s : State} (he : s.err = none) (hp : s.padded = false) (hl : s.len = 0) :
    exec (.hdr n) s = .next (writeHeader n s) :=
  (command_of_check_none he (checkHdr_eq_none.2 ⟨hp, hl⟩)).trans
    (storing_fits (by rw [Nat.zero_add]; exact commitHeader_length_le_capacity n s))

theorem exec_mark_of_fits {s : State} (he : s.err = none) (hp : s.padded = false) (hm : s.marked = false)
    (hfit : s.len.toNat + 16 ≤ s.capacity) : exec .mark s = .next (reservePlaceholder s) :=
  (command_of_check_none he (checkMark_eq_none.2 ⟨hp, hm, hfit⟩)).trans (storing_fits hfit)

theorem exec_putb_eq_appendData (b : Byte) {s : State} (he : s.err = none) (hp : s.padded = false)
    (hl : s.len.toNat < s.capacity) : exec (.putb b) s = .next (appendData [b] s) :=
  (command_of_check_none he (checkPutb_eq_none.2 ⟨hp, hl.ne⟩)).trans (storing_fits hl)

theorem exec_pad_of_check {s : State} {x : Cause} (he : s.err = none) (hc : checkPad s = some x) :
    exec .pad s = .next (raise x (encode .pad) s) :=
  command_of_check_some he hc

/-! ## Runs of commands -/

theorem execAll_cons_of_next {i : Instr} {is : List Instr} {s t : State} (h : exec i s = .next t) :
    execAll (i :: is) s = execAll is t := by
  rw [execAll, h]

theorem execAll_append_of_next {is js : List Instr} {s t : State} (h : execAll is s = .next t) :
    execAll (is ++ js) s = execAll js t := by
  induction is generalizing s with
  | nil =>
    cases h
    rfl
  | cons i is ih =>
    rw [execAll] at h
    split at h
    case h_1 u hu => exact (execAll_cons_of_next hu).trans (ih h)
    case h_2 => cases h
    case h_3 => cases h

/-- A run and one command behind it. -/
theorem execAll_concat {is : List Instr} {i : Instr} {s t u : State} (h : execAll is s = .next t)
    (hi : exec i t = .next u) : execAll (is ++ [i]) s = .next u :=
  (execAll_append_of_next h).trans (execAll_cons_of_next hi)

/-- PUTB for each byte of `bs` appends `bs`, where the bytes fit. -/
theorem execAll_putAll (bs : List Byte) {s : State} (he : s.err = none) (hp : s.padded = false)
    (hfit : s.len.toNat + bs.length ≤ s.capacity) : execAll (putAll bs) s = .next (appendData bs s) := by
  induction bs generalizing s with
  | nil => rw [appendData_nil]; rfl
  | cons b bs ih =>
    rw [List.length_cons] at hfit
    have hone : s.len.toNat + [b].length ≤ s.capacity := by rw [List.length_singleton]; omega
    have hlen : (appendData [b] s).len.toNat = s.len.toNat + 1 := State.toNat_ofNat_of_le_capacity hone
    calc execAll (putAll (b :: bs)) s
      _ = execAll (putAll bs) (appendData [b] s) := execAll_cons_of_next (exec_putb_eq_appendData b he hp hone)
      _ = .next (appendData bs (appendData [b] s)) := ih he hp (by rw [hlen]; change _ ≤ s.capacity; omega)
      _ = .next (appendData (b :: bs) s) := by rw [← appendData_append [b] bs hone, List.singleton_append]

/-! ## The data in the buffer -/

/-- The data of `s`, `MB[0 .. LEN-1]`, are the bytes `d`. -/
structure HoldsData (s : State) (d : List Byte) : Prop where
  length : s.len.toNat = d.length
  bytes : Memory.readList s.mb 0 d.length = some d

theorem HoldsData.readList {s : State} {d : List Byte} (h : HoldsData s d) :
    Memory.readList s.mb 0 s.len.toNat = some d := by
  rw [h.length, h.bytes]

section
variable {s : State} {d bs : List Byte} (h : HoldsData s d)
include h

theorem HoldsData.execAll_putAll (he : s.err = none) (hp : s.padded = false)
    (hfit : d.length + bs.length ≤ s.capacity) : execAll (putAll bs) s = .next (appendData bs s) :=
  Machine.execAll_putAll bs he hp (by rwa [h.length])

theorem HoldsData.exec_mark (he : s.err = none) (hp : s.padded = false) (hm : s.marked = false)
    (hfit : d.length + 16 ≤ s.capacity) : exec .mark s = .next (Machine.reservePlaceholder s) :=
  exec_mark_of_fits he hp hm (by rwa [h.length])

end

theorem holdsData_writeHeader (n : Word) (s : State) : HoldsData (writeHeader n s) (commitHeader n) where
  length := State.toNat_ofNat_of_le_capacity (commitHeader_length_le_capacity n s)
  bytes := Memory.readList_writeList s.mb 0 (commitHeader n)

theorem HoldsData.appendData {s : State} {d bs : List Byte} (h : HoldsData s d)
    (hfit : d.length + bs.length ≤ s.capacity) : HoldsData (appendData bs s) (d ++ bs) where
  length := by
    rw [List.length_append, ← h.length]
    exact State.toNat_ofNat_of_le_capacity (by rwa [h.length])
  bytes := by
    rw [List.length_append, Machine.appendData, appendBytes, h.length]
    refine Memory.readList_append ?_ ?_
    · rw [Memory.readList_writeList_outside (.inl (Nat.zero_add _).le), h.bytes]
    · rw [Nat.zero_add, Memory.readList_writeList]

theorem HoldsData.recordPlaceholder {s : State} {d : List Byte} (h : HoldsData s d) (p : Word) :
    HoldsData (recordPlaceholder p s) d :=
  ⟨h.length, h.bytes⟩

theorem HoldsData.reservePlaceholder {s : State} {d : List Byte} (h : HoldsData s d)
    (hfit : d.length + 16 ≤ s.capacity) : HoldsData (reservePlaceholder s) (d ++ List.replicate 16 0x46) :=
  (h.appendData (by rwa [List.length_replicate])).recordPlaceholder s.len

/-- A padding stored behind the data leaves the padded message there (40_padding.md section 4). -/
theorem HoldsData.readList_padTail {s : State} {d : List Byte} (h : HoldsData s d) :
    Memory.readList (Memory.writeList s.mb s.len.toNat (padTail s.len.toNat)) 0 (padLen s.len.toNat) =
      some (Machine.pad d) := by
  have hroom := padLen_bounds s.len.toNat
  have hwhole : padLen s.len.toNat = s.len.toNat + (padTail s.len.toNat).length := by rw [padTail_length]; omega
  rw [hwhole, Machine.pad, ← h.length]
  refine Memory.readList_append ?_ ?_
  · rw [Memory.readList_writeList_outside (.inl (Nat.zero_add _).le), h.readList]
  · rw [Nat.zero_add, Memory.readList_writeList]

/-! ## The framing run before PAD (rule R113) -/

/-- The data that rule R113 frames: the header, the bytes `x`, the placeholder, the bytes `y`. -/
def framedBytes (n : Word) (x y : List Byte) : List Byte := commitHeader n ++ x ++ List.replicate 16 0x46 ++ y

/-- The state that HDR `n`, PUTB for each byte of `x`, MARK, PUTB for each byte of `y` leave. -/
def framedState (c : Capacity) (n : Word) (x y : List Byte) : State :=
  appendData y (reservePlaceholder (appendData x (writeHeader n (resetFor c))))

theorem framedBytes_length (n : Word) (x y : List Byte) :
    (framedBytes n x y).length = (commitHeader n).length + (x.length + 16 + y.length) := by
  simp only [framedBytes, List.length_append, List.length_replicate]
  omega

section
variable {c : Capacity} {n : Word} {x y : List Byte}
  (hroom : (commitHeader n).length + (x.length + 16 + y.length) ≤ c.bytes)
include hroom

theorem bytesBeforeMark_fit : (commitHeader n).length + x.length ≤ c.bytes := by omega

theorem placeholder_fits : (commitHeader n ++ x).length + 16 ≤ c.bytes := by
  rw [List.length_append]
  omega

theorem bytesAfterMark_fit : (commitHeader n ++ x ++ List.replicate 16 0x46).length + y.length ≤ c.bytes := by
  simp only [List.length_append, List.length_replicate]
  omega

theorem holdsData_afterBytes : HoldsData (appendData x (writeHeader n (resetFor c))) (commitHeader n ++ x) :=
  (holdsData_writeHeader n _).appendData (bytesBeforeMark_fit hroom)

theorem holdsData_afterMark :
    HoldsData (reservePlaceholder (appendData x (writeHeader n (resetFor c))))
      (commitHeader n ++ x ++ List.replicate 16 0x46) :=
  (holdsData_afterBytes hroom).reservePlaceholder (placeholder_fits hroom)

theorem holdsData_framedState : HoldsData (framedState c n x y) (framedBytes n x y) :=
  (holdsData_afterMark hroom).appendData (bytesAfterMark_fit hroom)

theorem framedState_len_toNat :
    (framedState c n x y).len.toNat = (commitHeader n).length + (x.length + 16 + y.length) := by
  rw [(holdsData_framedState hroom).length, framedBytes_length]

theorem framedState_poff_toNat : (framedState c n x y).poff.toNat = (commitHeader n).length + x.length :=
  (holdsData_afterBytes hroom).length.trans List.length_append

/-- The body that PAD compares with the announced length: the data behind the header. -/
theorem framedState_body_eq_iff :
    ((framedState c n x y).len.toNat : Int) - (framedState c n x y).hlen.toNat = (framedState c n x y).bodyLen.toNat ↔
      n.toNat = x.length + 16 + y.length := by
  have hlen := framedState_len_toNat hroom
  have hhlen : (framedState c n x y).hlen.toNat = (commitHeader n).length :=
    (holdsData_writeHeader n (resetFor c)).length
  have hbody : (framedState c n x y).bodyLen = n := rfl
  rw [hlen, hhlen, hbody]
  omega

/-- Every command before PAD runs without a fault. -/
theorem execAll_framing :
    execAll ([.hdr n] ++ putAll x ++ [.mark] ++ putAll y) (resetFor c) = .next (framedState c n x y) := by
  have hhdr : execAll [.hdr n] (resetFor c) = .next (writeHeader n (resetFor c)) :=
    execAll_cons_of_next (exec_hdr_of_empty n rfl rfl rfl)
  have hx := (execAll_append_of_next hhdr).trans
    ((holdsData_writeHeader n _).execAll_putAll rfl rfl (bytesBeforeMark_fit hroom))
  have hmark := execAll_concat hx ((holdsData_afterBytes hroom).exec_mark rfl rfl rfl (placeholder_fits hroom))
  exact (execAll_append_of_next hmark).trans
    ((holdsData_afterMark hroom).execAll_putAll rfl rfl (bytesAfterMark_fit hroom))

end

/-! ## The obligations of rules R110 to R113 -/

/-- Settles O21: the header is `commitHeader_split`'s nonzero bytes and one zero byte. -/
theorem commitHeaderBytes : Obligations.CommitHeaderBytes := by
  refine ⟨fun n => ?_, by decide⟩
  obtain ⟨hge, hle⟩ := commitHeader_length_bounds n
  exact ⟨rfl, commitHeader_length n, hge, hle, commitHeader_getElem?_eq_zero_iff n⟩

/-- Settles O22: the check of HDR by cases; a header is at most 18 bytes and a buffer at least 64. -/
theorem hdrWritesHeader : Obligations.HdrWritesHeader := fun n s he =>
  ⟨exec_hdr_of_empty n he, fun h => command_of_check_some he (checkHdr_of_sequence h), rfl,
    commitHeader_length_le_capacity n s⟩

/-- Settles O24: the check of MARK by cases; `LEN + 16` fits a register since the capacity does. -/
theorem markReservesPlaceholder : Obligations.MarkReservesPlaceholder := by
  intro s he
  refine ⟨fun hp hm hfit => ?_, fun h => command_of_check_some he (checkMark_of_sequence h),
    fun hp hm hbig => command_of_check_some he (checkMark_of_overflow hp hm hbig), by decide⟩
  have hcap := s.capacity_bounds
  exact ⟨by rw [exec_mark_of_fits he hp hm hfit, reservePlaceholder_eq], by bv_omega⟩

/-- Settles O59: PAD on the framed data, by the three cases of its check. -/
theorem framingBuildsMessage : Obligations.FramingBuildsMessage := by
  intro c n x y hroom
  have hdata := holdsData_framedState hroom
  have hlen := framedState_len_toNat hroom
  have hpoff := framedState_poff_toNat hroom
  have hbody := framedState_body_eq_iff hroom
  have hrun := execAll_framing hroom
  by_cases hn : n.toNat = x.length + 16 + y.length
  · by_cases hfit : padLen (framedState c n x y).len.toNat ≤ c.bytes
    · have hplen := State.toNat_ofNat_of_le_capacity (s := framedState c n x y) hfit
      refine ⟨_, execAll_concat hrun (exec_pad_of_fits rfl rfl (fun _ => hbody.2 hn) hfit), ?_, hpoff, hlen,
        fun _ _ => ⟨rfl, rfl, hn ▸ hlen, ?_⟩, fun hne => absurd hn hne, fun _ hbig => absurd hfit hbig.not_ge⟩
      · exact (Memory.readList_writeList_outside (.inl (Nat.zero_add _).le)).trans hdata.readList
      · rw [hplen]
        exact hdata.readList_padTail
    · have hcheck := checkPad_of_overflow (s := framedState c n x y) rfl (fun _ => hbody.2 hn) (Nat.lt_of_not_ge hfit)
      exact ⟨_, execAll_concat hrun (exec_pad_of_check rfl hcheck), hdata.readList, hpoff, hlen,
        fun _ h => absurd h hfit, fun hne => absurd hn hne, fun _ _ => ⟨rfl, rfl, rfl⟩⟩
  · have hcheck := checkPad_of_length_ne (s := framedState c n x y) rfl rfl (mt hbody.1 hn)
    exact ⟨_, execAll_concat hrun (exec_pad_of_check rfl hcheck), hdata.readList, hpoff, hlen,
      fun h => absurd h hn, fun _ => ⟨rfl, rfl, rfl⟩, fun h => absurd h hn⟩

end Sys2Proof.Machine
end

section
/-! The nonce and the object (43_result.md rules R120 to R124): what SETNL, SETNH, SPLICE and STRIP answer when no fault
was recorded, the bytes a store inside a window leaves there, and the obligations about them. -/

namespace Sys2Proof.Machine

open Sys2Proof

/-! ## SETNL and SETNH (rules R120 and R121) -/

theorem exec_setnl_runs (v : Word) {s : State} (he : s.err = none) :
    exec (.setnl v) s = .next { s with nonce := s.nonce.extractLsb' 32 32 ++ v } :=
  command_runs (w := encode (.setnl v)) he

theorem exec_setnh_runs (v : Word) {s : State} (he : s.err = none) :
    exec (.setnh v) s = .next { s with nonce := v ++ s.nonce.extractLsb' 0 32 } :=
  command_runs (w := encode (.setnh v)) he

/-- A nonce is its upper half followed by its lower half. -/
theorem nonce_eq_halves (v : Nonce) : v.extractLsb' 32 32 ++ v.extractLsb' 0 32 = v :=
  (BitVec.extractLsb'_append_extractLsb'_eq_extractLsb' (x := v) rfl).trans BitVec.extractLsb'_eq_self

/-- SETNH and SETNL with the halves of `v` leave `v` in the nonce and nothing else changed (30_encoding.md rule R68,
SETN). -/
theorem execAll_setn (v : Nonce) (is : List Instr) {s : State} (he : s.err = none) :
    execAll (.setnh (v.extractLsb' 32 32) :: .setnl (v.extractLsb' 0 32) :: is) s = execAll is { s with nonce := v } := by
  have hsetnl := exec_setnl_runs (v.extractLsb' 0 32)
    (s := { s with nonce := v.extractLsb' 32 32 ++ s.nonce.extractLsb' 0 32 }) he
  rw [BitVec.extractLsb'_append_eq_left, nonce_eq_halves] at hsetnl
  exact (execAll_cons_of_next (exec_setnh_runs _ he)).trans (execAll_cons_of_next hsetnl)

/-! ## SPLICE (rule R122) -/

/-- An answer that stores `bs` and does nothing else: no register changes, and no byte outside the store. -/
theorem stores_only {r : Result} {s : State} {a : Nat} {bs : List Byte}
    (h : r = .next { s with mb := Memory.writeList s.mb a bs }) :
    ∃ t, r = .next t ∧ t = { s with mb := t.mb } ∧ (∀ i, i < bs.length → t.byte (a + i) = bs[i]?) ∧
      sameOutside s t a bs.length := by
  refine ⟨_, h, rfl, fun i hi => ?_, fun x hx => ?_⟩
  · rw [byte_store, if_pos (by omega), Nat.add_sub_cancel_left]
  · rw [byte_store, if_neg hx]

theorem checkSplice_of_unmarked {s : State} (hm : s.marked = false) : checkSplice s = some .sequence := if_pos hm

/-! ## STRIP (rule R123) -/

/-- The scan stops at the first `0x00` it meets. -/
theorem Memory.scanZero_of_first {m : Memory} {a n z : Nat} (hz : a ≤ z ∧ z < a + n)
    (hzero : Memory.read m z = some 0) (hbefore : ∀ x, a ≤ x → x < z → ∃ b, Memory.read m x = some b ∧ b ≠ 0) :
    Memory.scanZero m a n = .zeroAt z := by
  induction n generalizing a with
  | zero => omega
  | succ n ih =>
    obtain rfl | hlt := hz.1.eq_or_lt
    · simp [Memory.scanZero, hzero]
    · obtain ⟨b, hb, hne⟩ := hbefore a le_rfl hlt
      simp only [Memory.scanZero, hb, if_neg hne]
      exact ih (by omega) fun x hx => hbefore x (by omega)

theorem checkStrip_of_unpadded {s : State} (hp : s.padded = false) : checkStrip s = some .sequence := if_pos hp

theorem checkStrip_of_noTerminator {s : State} (hp : s.padded = true) (hn : noTerminatorCondition s) :
    checkStrip s = some .noTerminator := by
  rw [checkStrip, if_neg (by simp [hp]), if_pos (scanZero_eq_noZero.2 hn)]

theorem exec_strip_of_first {s : State} {z : Nat} (he : s.err = none) (hp : s.padded = true) (hlt : z < s.len.toNat)
    (hzero : s.byte z = some 0) (hbefore : ∀ a, a < z → ∃ b, s.byte a = some b ∧ b ≠ 0) :
    exec .strip s = .next (recordObject z s) := by
  have hscan : Memory.scanZero s.mb 0 s.len.toNat = .zeroAt z :=
    Memory.scanZero_of_first (by omega) hzero fun a _ => hbefore a
  refine (command_of_check_none he (checkStrip_eq_none.2 ⟨hp, by simp [hscan]⟩)).trans ?_
  rw [hscan]

/-- Framed and padded data are the header and the announced body (item 5 of rule R32). -/
theorem Inv.len_framed {s : State} (h : Inv s) (hp : s.padded = true) (hd : s.hdrDone = true) :
    s.len.toNat = s.hlen.toNat + s.bodyLen.toNat := by
  obtain ⟨-, -, hbody⟩ := h.isPadded hp
  exact hbody hd

/-- On framed and padded data the object window is the announced body: the header's last byte is the first `0x00`. -/
theorem Inv.exec_strip_framed {s : State} (h : Inv s) (he : s.err = none) (hp : s.padded = true)
    (hd : s.hdrDone = true) :
    exec .strip s = .next { s with objOff := s.hlen, objLen := s.bodyLen, stripped := true } := by
  obtain ⟨-, hge, -, hle, -⟩ := h.header hd
  obtain ⟨hzero, hbefore⟩ := h.header_zero hd
  have hlen := h.len_framed hp hd
  have hoff : s.hlen.toNat - 1 + 1 = s.hlen.toNat := by omega
  have hobj : s.len.toNat - s.hlen.toNat = s.bodyLen.toNat := by omega
  rw [exec_strip_of_first he hp (by omega) hzero hbefore, recordObject, hoff, hobj]
  simp only [BitVec.ofNat_toNat, BitVec.setWidth_eq]

theorem objectBytes_of_stripped {s : State} (hs : s.stripped = true) :
    s.objectBytes = Memory.readList s.mb s.objOff.toNat s.objLen.toNat :=
  if_pos hs

/-! ## A store inside a window (rule R124) -/

/-- A window read after a store inside it: the stored bytes at their place, the bytes before everywhere else. -/
theorem Memory.readList_writeList_inside {m : Memory} {a b n : Nat} {bs body : List Byte}
    (hbody : Memory.readList m b n = some body) (hba : b ≤ a) (hend : a + bs.length ≤ b + n) :
    ∃ obj, Memory.readList (Memory.writeList m a bs) b n = some obj ∧ obj.length = n ∧
      (∀ i, i < bs.length → obj[a - b + i]? = bs[i]?) ∧
      ∀ k, ¬ (a - b ≤ k ∧ k < a - b + bs.length) → obj[k]? = body[k]? := by
  obtain ⟨hlen, hread⟩ := Memory.readList_eq_some.1 hbody
  have hsome : ∀ i, i < n → (Memory.read (Memory.writeList m a bs) (b + i)).isSome = true := fun i hi => by
    rw [Memory.read_writeList]
    split
    · rw [List.getElem?_eq_getElem (by omega), Option.isSome_some]
    · rw [hread i hi, List.getElem?_eq_getElem (by omega), Option.isSome_some]
  obtain ⟨obj, hobj⟩ := Memory.readList_isSome hsome
  obtain ⟨holen, horead⟩ := Memory.readList_eq_some.1 hobj
  refine ⟨obj, hobj, holen, fun i hi => ?_, fun k hk => ?_⟩
  · rw [← horead _ (by omega), Memory.read_writeList, if_pos (by omega)]
    congr 1
    omega
  · by_cases hkn : k < n
    · rw [← horead k hkn, ← hread k hkn, Memory.read_writeList_outside (by omega)]
    · rw [List.getElem?_eq_none (by omega), List.getElem?_eq_none (by omega)]

/-! ## The obligations of rules R120 to R124 -/

/-- Settles O26: each command joins its operand to the other half of the nonce. -/
theorem nonceHalvesWritten : Obligations.NonceHalvesWritten := fun v _ he =>
  ⟨⟨_, exec_setnl_runs v he, rfl, BitVec.extractLsb'_append_eq_right, BitVec.extractLsb'_append_eq_left⟩,
    ⟨_, exec_setnh_runs v he, rfl, BitVec.extractLsb'_append_eq_left, BitVec.extractLsb'_append_eq_right⟩, rfl, rfl⟩

/-- Settles O27: SPLICE stores the characters of the nonce and does nothing else. -/
theorem spliceWritesNonce : Obligations.SpliceWritesNonce := by
  intro s he
  refine ⟨fun hm hfit => ?_, fun hm => command_of_check_some he (checkSplice_of_unmarked hm), by decide⟩
  obtain ⟨t, ht, hregs, hinside, houtside⟩ := stores_only (exec_splice_of_marked he hm hfit)
  rw [hex16_length] at hinside houtside
  exact ⟨t, ht, hregs, fun i hi => (hinside i hi).trans (hex16_getElem? s.nonce hi), houtside⟩

/-- Settles O28: the check of STRIP by cases; the first `0x00` is where its scan stops. -/
theorem stripLocatesObject : Obligations.StripLocatesObject := fun _ he =>
  ⟨fun _ => exec_strip_of_first he, fun hinv => hinv.exec_strip_framed he,
    fun hp => command_of_check_some he (checkStrip_of_unpadded hp),
    fun hp hn => command_of_check_some he (checkStrip_of_noTerminator hp hn), by decide⟩

/-- Settles O60: SPLICE keeps the invariants, so STRIP finds the announced body, in which the placeholder lies. -/
theorem resultApplierYieldsObject : Obligations.ResultApplierYieldsObject := by
  intro s v body hinv he hm hp hd hbody
  obtain ⟨hin, hbehind, -⟩ := hinv.placeholder hm
  obtain ⟨hext, hcap⟩ := hinv.extent
  have hlen := hinv.len_framed hp hd
  have hspliced : Inv { s with nonce := v, mb := Memory.writeList s.mb s.poff.toNat (hex16 v) } :=
    (hinv.setNonceDigestPort v s.digest s.port).splice_effect hm
  have hsplice := exec_splice_of_marked (s := { s with nonce := v }) he hm (show s.poff.toNat + 16 ≤ s.capacity by omega)
  obtain ⟨obj, hobj, hobjlen, hnonce, hrest⟩ :=
    Memory.readList_writeList_inside (bs := hex16 v) hbody (hbehind hd) (by rw [hex16_length]; omega)
  rw [hex16_length] at hnonce hrest
  -- What follows reads only these facts about the buffer that SPLICE leaves.
  generalize Memory.writeList s.mb s.poff.toNat (hex16 v) = m at hspliced hsplice hobj
  obtain ⟨-, -, -, -, hheader⟩ := hspliced.header hd
  have hrun := (execAll_setn v _ he).trans ((execAll_cons_of_next hsplice).trans
    (execAll_cons_of_next (is := []) (hspliced.exec_strip_framed he hp hd)))
  refine ⟨_, hrun, he, rfl, rfl, rfl, obj, (objectBytes_of_stripped rfl).trans hobj, hobjlen, hnonce, hrest, ?_⟩
  dsimp only at hheader ⊢
  rw [hlen]
  exact Memory.readList_append hheader (by rwa [Nat.zero_add])

end Sys2Proof.Machine
end

section
/-! Faults (60_exceptions.md rules R130 to R135): the one check that each command and each word makes, what it answers by
that check, that the check finds the first cause of rule R134, and the obligations about them. -/

namespace Sys2Proof.Machine

open Sys2Proof

/-! ## The word of a command -/

theorem operandImm_of_decodeN {imm : Word} {i j : Instr} (h : decodeN imm j = .command i) (hj : operandImm j = 0) :
    operandImm i = imm := by
  unfold decodeN at h
  split at h
  case isTrue himm =>
    cases h
    exact hj.trans himm.symm
  case isFalse => cases h

theorem operandImm_of_decodeB {imm : Word} {mk : Byte → Instr} {i : Instr} (h : decodeB imm mk = .command i)
    (hmk : ∀ b, operandImm (mk b) = b.setWidth 32) : operandImm i = imm := by
  unfold decodeB at h
  split at h
  case isTrue himm =>
    cases h
    exact (hmk _).trans (setWidth_byteOf himm)
  case isFalse => cases h

theorem operandImm_of_decodeW {imm : Word} {mk : Word → Instr} {i : Instr} (h : decodeW imm mk = .command i)
    (hmk : ∀ v, operandImm (mk v) = v) : operandImm i = imm := by
  cases h
  exact hmk imm

theorem operandImm_of_decode {w : CmdWord} {i : Instr} {m : Mnemonic} (h : decode w = .command i)
    (hop : opField w = opcode m) : operandImm i = immField w := by
  unfold decode at h
  rw [hop] at h
  cases m
  case mark | pad | splice | strip | cmp => exact operandImm_of_decodeN h rfl
  case putb | putc => exact operandImm_of_decodeB h fun _ => rfl
  case hdr | setnl | setnh | setd0 | setd1 | setd2 | setd3 | setd4 => exact operandImm_of_decodeW h fun _ => rfl

/-- The word of a command is the command's encoding, which is what a fault records in `ECMD` (log entry 8). -/
theorem encode_of_decode {w : CmdWord} {i : Instr} (h : decode w = .command i) : encode i = w := by
  obtain ⟨hop, -⟩ := row_selects_iff.1 (decode_command_iff_row_selects.1 ⟨i, h, rfl⟩)
  rw [encode, ← hop, operandImm_of_decode h hop, word_eq_fields]

/-! ## The check of a command and of a word -/

/-- The check a command makes before its effect; the commands that rule R130 does not list make none. -/
def checkOf : Instr → State → Option Cause
  | .hdr _, s => checkHdr s
  | .putb _, s => checkPutb s
  | .mark, s => checkMark s
  | .pad, s => checkPad s
  | .splice, s => checkSplice s
  | .strip, s => checkStrip s
  | .putc c, s => checkPutc c s
  | .setnl _, _ => none
  | .setnh _, _ => none
  | .cmp, _ => none
  | .setd0 _, _ => none
  | .setd1 _, _ => none
  | .setd2 _, _ => none
  | .setd3 _, _ => none
  | .setd4 _, _ => none

/-- The fault a word raises if the FMU is not halted. -/
def checkWord (w : CmdWord) (s : State) : Option Cause :=
  match decode w with
  | .command i => checkOf i s
  | .illegal _ => some .illegalCommand

theorem checkWord_of_command {w : CmdWord} {i : Instr} (s : State) (h : decode w = .command i) :
    checkWord w s = checkOf i s := by
  rw [checkWord, h]

theorem checkWord_of_illegal {w : CmdWord} {why : Illegal} (s : State) (h : decode w = .illegal why) :
    checkWord w s = some .illegalCommand := by
  rw [checkWord, h]

/-- A store followed by an update that keeps `ERR` keeps `ERR`. -/
theorem storing_err {a : Nat} {bs : List Byte} {s t : State} {k : State → State}
    (h : storing a bs s (fun u => .next (k u)) = .next t) (hk : ∀ u, (k u).err = u.err) : t.err = s.err := by
  obtain ⟨-, ht⟩ := storing_next h
  cases ht
  exact hk _

/-- Every command is its check followed by an effect that writes no `ERR`. -/
theorem exec_eq_command (i : Instr) (s : State) :
    ∃ effect, exec i s = command (encode i) (checkOf i s) s effect ∧
      ∀ t, checkOf i s = none → effect = .next t → t.err = s.err := by
  cases i with
  | hdr | putb | mark | pad | splice => exact ⟨_, rfl, fun _ _ h => storing_err h fun _ => rfl⟩
  | strip =>
    refine ⟨_, rfl, fun t hc h => ?_⟩
    obtain ⟨-, hscan⟩ := checkStrip_eq_none.1 hc
    split at h
    case h_1 => cases h; rfl
    case h_2 => cases h
    case h_3 hno => exact absurd hno hscan
  | putc c =>
    refine ⟨_, rfl, fun t hc h => ?_⟩
    obtain ⟨-, -, d, hd⟩ := checkPutc_eq_none.1 hc
    obtain ⟨-, ht⟩ := withPrecision_next h
    rw [hd] at ht
    cases ht
    rfl
  | cmp =>
    refine ⟨_, rfl, fun t _ h => ?_⟩
    obtain ⟨-, ht⟩ := withPrecision_next h
    cases ht
    rfl
  | setnl | setnh | setd0 | setd1 | setd2 | setd3 | setd4 => exact ⟨_, rfl, fun _ _ h => by cases h; rfl⟩

theorem exec_halted (i : Instr) {s : State} (h : s.err ≠ none) : exec i s = .next s := by
  obtain ⟨effect, hexec, -⟩ := exec_eq_command i s
  rw [hexec, command_halted h]

theorem exec_of_check {i : Instr} {s : State} {x : Cause} (he : s.err = none) (hc : checkOf i s = some x) :
    exec i s = .next (raise x (encode i) s) := by
  obtain ⟨effect, hexec, -⟩ := exec_eq_command i s
  rw [hexec, hc, command_raises he]

/-- A command's next state by its check: a discard, the fault the check found, or an effect with no fault. -/
theorem exec_next {i : Instr} {s t : State} (h : exec i s = .next t) :
    (s.err ≠ none ∧ t = s) ∨ (∃ x, s.err = none ∧ checkOf i s = some x ∧ t = raise x (encode i) s) ∨
      (s.err = none ∧ checkOf i s = none ∧ t.err = none) := by
  obtain ⟨effect, hexec, heffect⟩ := exec_eq_command i s
  obtain hhalted | hraise | ⟨he, hc, ht⟩ := command_next (hexec.symm.trans h)
  · exact .inl hhalted
  · exact .inr (.inl hraise)
  · exact .inr (.inr ⟨he, hc, (heffect t hc ht).trans he⟩)

theorem execWord_halted (w : CmdWord) {s : State} (h : s.err ≠ none) : execWord w s = .next s :=
  if_pos ((halted_iff s).2 h)

theorem execWord_of_check {w : CmdWord} {s : State} {x : Cause} (he : s.err = none) (hc : checkWord w s = some x) :
    execWord w s = .next (raise x w s) := by
  cases hd : decode w with
  | command i =>
    rw [checkWord_of_command s hd] at hc
    rw [execWord_command he hd, exec_of_check he hc, encode_of_decode hd]
  | illegal why =>
    cases (checkWord_of_illegal s hd).symm.trans hc
    exact execWord_illegal he hd

/-- A word's next state by its check: a discard, the fault the check found, or an effect with no fault. -/
theorem execWord_next_by_check {w : CmdWord} {s t : State} (h : execWord w s = .next t) :
    (s.err ≠ none ∧ t = s) ∨ (∃ x, s.err = none ∧ checkWord w s = some x ∧ t = raise x w s) ∨
      (s.err = none ∧ checkWord w s = none ∧ t.err = none) := by
  obtain hhalted | ⟨he, ⟨why, hd⟩, rfl⟩ | ⟨-, i, hd, hexec⟩ := execWord_next h
  · exact .inl hhalted
  · exact .inr (.inl ⟨_, he, checkWord_of_illegal s hd, rfl⟩)
  · rw [checkWord_of_command s hd, ← encode_of_decode hd]
    exact exec_next hexec

/-! ## The check finds the first cause (rules R131 and R134) -/

/-- A check that looks at Sequence first and at no Sequence behind it answers Sequence under that first condition. -/
theorem ite_eq_sequence_iff {p : Prop} [Decidable p] {rest : Option Cause} (h : rest ≠ some .sequence) :
    (if p then some .sequence else rest) = some .sequence ↔ p := by
  simp [h]

theorem checkOf_eq_sequence_iff (i : Instr) (s : State) : checkOf i s = some .sequence ↔ sequenceCondition i s := by
  cases i with
  | hdr | splice => exact ite_eq_sequence_iff (by decide)
  | putb | mark | pad | strip | putc => exact ite_eq_sequence_iff (by split_ifs <;> decide)
  | setnl | setnh | cmp | setd0 | setd1 | setd2 | setd3 | setd4 => exact iff_of_false (Option.some_ne_none _).symm id

theorem find?_cons_decide {α : Type} (p : α → Prop) [DecidablePred p] (x : α) (xs : List α) :
    ((x :: xs).find? fun y => decide (p y)) = if p x then some x else xs.find? fun y => decide (p y) := by
  split
  case isTrue h => exact List.find?_cons_of_pos (decide_eq_true h)
  case isFalse h => exact List.find?_cons_of_neg (by simpa using h)

open Classical in
/-- The check of a word runs through the causes in the order of rule R134. -/
theorem checkWord_eq_find? (w : CmdWord) (s : State) :
    checkWord w s = faultOrder.find? fun x => decide (causeApplies x w s) := by
  simp only [faultOrder, find?_cons_decide, List.find?_nil]
  cases hd : decode w with
  | illegal why => simp [checkWord_of_illegal s hd, causeApplies, hd]
  | command i =>
    rw [checkWord_of_command s hd]
    cases i with
    | hdr => simp [checkOf, checkHdr, causeApplies, hd, sequenceCondition]
    | putb => simp [checkOf, checkPutb, causeApplies, hd, sequenceCondition]
    | mark => simp [checkOf, checkMark, causeApplies, hd, sequenceCondition, placeholderBytes]
    | pad => simp [checkOf, checkPad, causeApplies, hd, sequenceCondition]
    | splice => simp [checkOf, checkSplice, causeApplies, hd, sequenceCondition]
    | strip =>
      have hscan : Memory.scanZero s.mb 0 s.len.toNat = .noZero ↔ noTerminatorCondition s := scanZero_eq_noZero
      simp [checkOf, checkStrip, causeApplies, hd, sequenceCondition, hscan]
    | putc =>
      have hprec : s.prec.toNat = digestBits ↔ s.prec = 160 := BitVec.toNat_inj (y := 160)
      simp [checkOf, checkPutc, causeApplies, hd, sequenceCondition, hprec, ite_or]
    | setnl | setnh | cmp | setd0 | setd1 | setd2 | setd3 | setd4 =>
      simp [checkOf, causeApplies, hd, sequenceCondition]

theorem firstCause_iff {x : Cause} {w : CmdWord} {s : State} : firstCause x w s ↔ checkWord w s = some x := by
  classical
  rw [checkWord_eq_find?, List.find?_eq_some_iff_append]
  simp only [firstCause, decide_eq_true_eq, Bool.not_eq_true', decide_eq_false_iff_not]
  exact ⟨fun ⟨before, after, ho, hx, hb⟩ => ⟨hx, before, after, ho, hb⟩,
    fun ⟨hx, before, after, ho, hb⟩ => ⟨before, after, ho, hx, hb⟩⟩

theorem causeApplies_of_check {x : Cause} {w : CmdWord} {s : State} (h : checkWord w s = some x) :
    causeApplies x w s := by
  obtain ⟨-, -, -, hx, -⟩ := firstCause_iff.2 h
  exact hx

theorem err_eq_none_iff (s : State) : s.err = none ↔ s.errCode = 0 := by
  have h := not_congr (faultOut_iff s)
  simpa [State.faultOut] using h

/-! ## The obligations of rules R130 to R135 -/

/-- Settles O39: a command's check answers Sequence under the command's condition, and only a check raises. -/
theorem sequenceConditions : Obligations.SequenceConditions := by
  intro i s he
  rw [← checkOf_eq_sequence_iff]
  refine ⟨fun h => ?_, exec_of_check he⟩
  obtain ⟨hhalted, -⟩ | ⟨x, -, hc, ht⟩ | ⟨-, -, hnone⟩ := exec_next h
  · exact absurd he hhalted
  · exact hc.trans (congrArg State.err ht).symm
  · cases hnone

/-- Settles O40: a word's check finds the first cause that applies, and what it finds, and nothing else, is raised. -/
theorem firstCauseIsRaised : Obligations.FirstCauseIsRaised := by
  refine ⟨rfl, err_eq_none_iff, fun w _ => execWord_halted w, fun w s x he hx => ?_, fun w s t he hno h => ?_⟩
  · exact ⟨_, execWord_of_check he (firstCause_iff.1 hx), rfl, rfl⟩
  · obtain ⟨hhalted, -⟩ | ⟨x, -, hc, -⟩ | ⟨-, -, hnone⟩ := execWord_next_by_check h
    · exact absurd he hhalted
    · exact absurd (causeApplies_of_check hc) (hno x)
    · exact hnone

/-- Settles O41: of a word's three answers only the raised fault writes `ERR`. -/
theorem faultsArePrecise : Obligations.FaultsArePrecise := by
  intro w s t h hne
  obtain ⟨-, rfl⟩ | ⟨x, he, -, rfl⟩ | ⟨he, -, hnone⟩ := execWord_next_by_check h
  · exact absurd rfl hne
  · refine ⟨he, rfl, ?_, rfl⟩
    rw [State.errCode, raise_err]
    cases x <;> decide
  · exact absurd (hnone.trans he.symm) hne

/-- Settles O42: a halted word and a halted command answer the state they found. -/
theorem haltedUntilReset : Obligations.HaltedUntilReset :=
  ⟨fun w s h => ⟨s, execWord_halted w h, rfl, rfl, rfl, fun _ => rfl, fun _ => rfl⟩, fun i _ => exec_halted i,
    fun s => ⟨resetEvent_err s, rfl⟩⟩

end Sys2Proof.Machine
end

section
/-! Reset (70_reset_and_hazards.md rule R160): no answer of a command clears a flag, so only a reset event does. -/

namespace Sys2Proof.Machine

open Sys2Proof

/-! ## No command clears a flag -/

/-- The flags of rule R160 without `RVALID`, which stands with the result slot: each that is set in `s` is set in `t`. -/
structure FlagsKept (s t : State) : Prop where
  padded : s.padded = true → t.padded = true
  marked : s.marked = true → t.marked = true
  hdrDone : s.hdrDone = true → t.hdrDone = true
  stripped : s.stripped = true → t.stripped = true
  tlock : s.tlock = true → t.tlock = true

theorem FlagsKept.refl (s : State) : FlagsKept s s := ⟨id, id, id, id, id⟩

theorem FlagsKept.raise (x : Cause) (w : CmdWord) (s : State) : FlagsKept s (raise x w s) := { FlagsKept.refl s with }

/-- No flag of `FlagsKept` is about the nonce or the digest. -/
theorem FlagsKept.setNonceDigest (s : State) (n : Nonce) (d : Words5) :
    FlagsKept s { s with nonce := n, digest := d } :=
  { FlagsKept.refl s with }

theorem answers.flagsKept {w : CmdWord} {s t : State} {effect : Prop} (h : answers w s t effect)
    (he : effect → FlagsKept s t) : FlagsKept s t := by
  obtain ⟨-, rfl⟩ | ⟨x, -, rfl⟩ | ⟨-, heff⟩ := h
  · exact .refl _
  · exact .raise x w s
  · exact he heff

theorem answersNoFault.flagsKept {s t : State} {effect : Prop} (h : answersNoFault s t effect)
    (he : effect → FlagsKept s t) : FlagsKept s t := by
  obtain ⟨-, rfl⟩ | ⟨-, heff⟩ := h
  · exact .refl _
  · exact he heff

/-- A command that writes a flag sets it, and it keeps the other flags. -/
theorem exec_flagsKept {i : Instr} {s t : State} (h : exec i s = .next t) : FlagsKept s t := by
  cases i with
  | hdr n =>
    refine (execHdr_next h).flagsKept ?_
    rintro ⟨-, -, rfl⟩
    exact { FlagsKept.refl s with hdrDone := fun _ => rfl }
  | putb b =>
    refine (execPutb_next h).flagsKept ?_
    rintro ⟨-, -, rfl⟩
    exact { FlagsKept.refl s with }
  | mark =>
    refine (execMark_next h).flagsKept ?_
    rintro ⟨-, -, -, rfl⟩
    exact { FlagsKept.refl s with marked := fun _ => rfl }
  | pad =>
    refine (execPad_next h).flagsKept ?_
    rintro ⟨-, -, -, rfl⟩
    exact { FlagsKept.refl s with padded := fun _ => rfl }
  | splice =>
    refine (execSplice_next h).flagsKept ?_
    rintro ⟨-, -, rfl⟩
    exact { FlagsKept.refl s with }
  | strip =>
    refine (execStrip_next h).flagsKept ?_
    rintro ⟨-, z, -, rfl⟩
    exact { FlagsKept.refl s with stripped := fun _ => rfl }
  | putc c =>
    refine (execPutc_next h).flagsKept ?_
    rintro ⟨-, -, d, -, rfl⟩
    exact { FlagsKept.refl s with }
  | cmp =>
    refine (execCmp_next h).flagsKept ?_
    rintro ⟨-, rfl⟩
    exact { FlagsKept.refl s with tlock := fun _ => rfl }
  | setnl v => exact (execSetnl_next h).flagsKept fun ht => ht ▸ .setNonceDigest s _ s.digest
  | setnh v => exact (execSetnh_next h).flagsKept fun ht => ht ▸ .setNonceDigest s _ s.digest
  | setd0 v => exact (execSetd0_next h).flagsKept fun ht => ht ▸ .setNonceDigest s s.nonce _
  | setd1 v => exact (execSetd1_next h).flagsKept fun ht => ht ▸ .setNonceDigest s s.nonce _
  | setd2 v => exact (execSetd2_next h).flagsKept fun ht => ht ▸ .setNonceDigest s s.nonce _
  | setd3 v => exact (execSetd3_next h).flagsKept fun ht => ht ▸ .setNonceDigest s s.nonce _
  | setd4 v => exact (execSetd4_next h).flagsKept fun ht => ht ▸ .setNonceDigest s s.nonce _

theorem execWord_flagsKept {w : CmdWord} {s t : State} (h : execWord w s = .next t) : FlagsKept s t := by
  obtain ⟨-, rfl⟩ | ⟨-, -, rfl⟩ | ⟨-, i, -, hexec⟩ := execWord_next h
  · exact .refl _
  · exact .raise .illegalCommand w s
  · exact exec_flagsKept hexec

/-! ## The obligation of rule R160 -/

/-- Settles O45: a reset event by the definition of `resetEvent`; a halted word answers the state it found, every word
keeps the flags, and the result slot is written once. -/
theorem resetEventIsTotal : Obligations.ResetEventIsTotal := by
  refine ⟨fun s => ⟨rfl, vext_resetEvent s, fun _ => rfl⟩, fun w s t h => ?_⟩
  have hhalted : s.err ≠ none → t.err = s.err ∧ t.ecmd = s.ecmd := fun he => by
    cases (execWord_halted w he).symm.trans h
    exact ⟨rfl, rfl⟩
  obtain ⟨hpadded, hmarked, hhdr, hstripped, htlock⟩ := execWord_flagsKept h
  obtain ⟨-, hslot⟩ := resultSlotWrittenOnce
  obtain ⟨hfilled, -⟩ := hslot w s t h
  exact ⟨hhalted, hpadded, hmarked, hhdr, hstripped, htlock, hfilled⟩

end Sys2Proof.Machine
end

section
/-! Words and steps (30_encoding.md section 4): the two round trips of the encoding, sample words, and what a step runs. -/

namespace Sys2Proof.Machine

open Sys2Proof

/-! ## Decoding an encoded command -/

theorem decodeN_zero (i : Instr) : decodeN 0 i = .command i := if_pos rfl

theorem decodeB_setWidth (b : Byte) (mk : Byte → Instr) : decodeB (b.setWidth 32) mk = .command (mk b) := by
  rw [decodeB, if_pos (aboveByte_setWidth b), byteOf_setWidth]

theorem decode_encode (i : Instr) : decode (encode i) = .command i := by
  unfold decode
  rw [encode, opField_append, immField_append]
  cases i with
  | mark | pad | splice | strip | cmp => exact decodeN_zero _
  | putb b | putc b => exact decodeB_setWidth b _
  | hdr | setnl | setnh | setd0 | setd1 | setd2 | setd3 | setd4 => rfl

theorem encode_injective : Function.Injective encode := fun i j h =>
  Decoded.command.inj ((decode_encode i).symm.trans ((congrArg decode h).trans (decode_encode j)))

/-! ## The word that a step takes -/

/-- A legal word runs its command; while halted both discard it. -/
theorem execWord_of_decode {w : CmdWord} {i : Instr} (s : State) (h : decode w = .command i) :
    execWord w s = exec i s := by
  by_cases he : s.err = none
  · exact execWord_command he h
  · rw [execWord_halted w he, exec_halted i he]

/-! ## The obligations of 30_encoding.md sections 3 and 4 -/

/-- Settles O1: the opcode selects the command's arm of `decode`, which accepts the command's operand field. -/
theorem decodeEncodeRoundTrip : Obligations.DecodeEncodeRoundTrip := decode_encode

/-- Settles O2: a legal word has its command's opcode and operand field, and a word is these two fields. -/
theorem encodeDecodeRoundTrip : Obligations.EncodeDecodeRoundTrip := fun _ _ => encode_of_decode

/-- Settles O5: the nine legal words are encodings of their commands. -/
theorem sampleWordsDecode : Obligations.SampleWordsDecode :=
  ⟨decode_encode (.hdr 19), decode_encode (.putb 0x61), decode_encode .mark, decode_encode .pad,
    decode_encode (.setnl 0x89ABCDEF), decode_encode .splice, decode_encode (.putc 0x63), decode_encode .cmp,
    decode_encode (.setd4 0xFFFFFFFF), by decide, by decide, by decide⟩

/-- Settles O6: the four forms of the port. -/
theorem stepRunsDecodedCommand : Obligations.StepRunsDecodedCommand :=
  ⟨fun _ _ _ _ hport hdecode => (step_command hport).trans (execWord_of_decode _ hdecode),
    fun _ _ _ => step_command, fun _ _ => step_reset, fun _ => step_idle⟩

end Sys2Proof.Machine
end

section
/-! What every command does once its check has passed: its effect, where the model gives it one (log entries 3, 5 and 6),
and the bytes it stores. Progress (70_reset_and_hazards.md section 6) and the model's own stops follow. -/

namespace Sys2Proof.Machine

open Sys2Proof

/-! ## The effect of a command -/

/-- The address at which a scan ended; a scan that ran through the data ended at none, and 0 stands for it. -/
def Scan.address : Scan → Nat
  | .zeroAt a => a
  | .noZero => 0
  | .noValue a => a

/-- The bytes that a command stores and the address it stores them from. -/
def storeOf : Instr → State → Nat × List Byte
  | .hdr n, _ => (0, commitHeader n)
  | .putb b, s => (s.len.toNat, [b])
  | .mark, s => (s.len.toNat, List.replicate 16 0x46)
  | .pad, s => (s.len.toNat, padTail s.len.toNat)
  | .splice, s => (s.poff.toNat, hex16 s.nonce)
  | .setnl _, _ => (0, [])
  | .setnh _, _ => (0, [])
  | .strip, _ => (0, [])
  | .putc _, _ => (0, [])
  | .cmp, _ => (0, [])
  | .setd0 _, _ => (0, [])
  | .setd1 _, _ => (0, [])
  | .setd2 _, _ => (0, [])
  | .setd3 _, _ => (0, [])
  | .setd4 _, _ => (0, [])

/-- The registers after a command, over the buffer as it was. -/
def registersOf : Instr → State → State
  | .hdr n, s =>
    { s with
      len := BitVec.ofNat 32 (commitHeader n).length
      hlen := BitVec.ofNat 32 (commitHeader n).length
      bodyLen := n
      hdrDone := true }
  | .putb _, s => { s with len := BitVec.ofNat 32 (s.len.toNat + 1) }
  | .mark, s => { s with poff := s.len, len := s.len + 16, marked := true }
  | .pad, s => { s with plen := BitVec.ofNat 32 (padLen s.len.toNat), padded := true }
  | .setnl v, s => { s with nonce := s.nonce.extractLsb' 32 32 ++ v }
  | .setnh v, s => { s with nonce := v ++ s.nonce.extractLsb' 0 32 }
  | .splice, s => s
  | .strip, s => recordObject (Memory.scanZero s.mb 0 s.len.toNat).address s
  | .putc c, s => recordDigit ((hexval c).getD 0) s
  | .cmp, s => recordMatch (prefixMatch s.digest s.target s.prec.toNat) s
  | .setd0 v, s => { s with digest := s.digest.set 0 v }
  | .setd1 v, s => { s with digest := s.digest.set 1 v }
  | .setd2 v, s => { s with digest := s.digest.set 2 v }
  | .setd3 v, s => { s with digest := s.digest.set 3 v }
  | .setd4 v, s => { s with digest := s.digest.set 4 v }

/-- The state a command leaves once its check has passed. -/
def effectOf (i : Instr) (s : State) : State :=
  { registersOf i s with mb := Memory.writeList s.mb (storeOf i s).1 (storeOf i s).2 }

theorem effectOf_err (i : Instr) (s : State) : (effectOf i s).err = s.err := by
  cases i <;> simp only [effectOf, registersOf, recordObject_err, recordDigit_err, recordMatch_err]

theorem effectOf_cap (i : Instr) (s : State) : (effectOf i s).cap = s.cap := by
  cases i <;> simp only [effectOf, registersOf, recordObject_cap, recordDigit_cap, recordMatch_cap]

/-- Where the model gives a command its effect: the bytes it stores lie in the buffer (log entry 5), the scan of STRIP
meets a `0x00` (log entry 3), the precision names bits of the Target (log entry 6). -/
def effectDefined : Instr → State → Prop
  | .hdr _, _ => True
  | .putb _, s => s.len.toNat < s.capacity
  | .mark, _ => True
  | .pad, _ => True
  | .setnl _, _ => True
  | .setnh _, _ => True
  | .splice, s => s.poff.toNat + 16 ≤ s.capacity
  | .strip, s => ∃ z, Memory.scanZero s.mb 0 s.len.toNat = .zeroAt z
  | .putc _, s => s.prec.toNat ≤ 160
  | .cmp, s => s.prec.toNat ≤ 160
  | .setd0 _, _ => True
  | .setd1 _, _ => True
  | .setd2 _, _ => True
  | .setd3 _, _ => True
  | .setd4 _, _ => True

/-- A command whose check passes has its effect where the model gives it one. -/
theorem exec_effect {i : Instr} {s : State} (he : s.err = none) (hc : checkOf i s = none) (hd : effectDefined i s) :
    exec i s = .next (effectOf i s) := by
  cases i with
  | hdr n =>
    obtain ⟨hp, hl⟩ := checkHdr_eq_none.1 hc
    exact exec_hdr_of_empty n he hp hl
  | putb b =>
    obtain ⟨hp, -⟩ := checkPutb_eq_none.1 hc
    exact exec_putb_eq_appendData b he hp hd
  | mark =>
    obtain ⟨hp, hm, hfit⟩ := checkMark_eq_none.1 hc
    rw [exec_mark_of_fits he hp hm hfit, reservePlaceholder_eq, effectOf, registersOf, storeOf]
  | pad =>
    obtain ⟨hp, hl, hfit⟩ := checkPad_eq_none.1 hc
    exact exec_pad_of_fits he hp hl hfit
  | setnl v => exact exec_setnl_runs v he
  | setnh v => exact exec_setnh_runs v he
  | splice => exact exec_splice_of_marked he (checkSplice_eq_none.1 hc) hd
  | strip =>
    obtain ⟨z, hz⟩ := hd
    obtain ⟨hp, -⟩ := checkStrip_eq_none.1 hc
    obtain ⟨hlt, hzero, hbefore⟩ := Memory.scanZero_eq_zeroAt hz
    rw [exec_strip_of_first he hp hlt hzero hbefore, effectOf, registersOf, hz]
    rfl
  | putc c =>
    obtain ⟨hl, hne, d, hdigit⟩ := checkPutc_eq_none.1 hc
    rw [exec_putc_of_hexval he hl (lt_of_le_of_ne hd hne) hdigit, effectOf, registersOf, hdigit]
    rfl
  | cmp => exact exec_cmp_of_prec he hd
  | setd0 v => exact setDigestWord_runs (encode (.setd0 v)) 0 v he
  | setd1 v => exact setDigestWord_runs (encode (.setd1 v)) 1 v he
  | setd2 v => exact setDigestWord_runs (encode (.setd2 v)) 2 v he
  | setd3 v => exact setDigestWord_runs (encode (.setd3 v)) 3 v he
  | setd4 v => exact setDigestWord_runs (encode (.setd4 v)) 4 v he

/-- A command whose check passes has a next state only where the model gives it an effect. -/
theorem effectDefined_of_exec_next {i : Instr} {s t : State} (he : s.err = none) (hc : checkOf i s = none)
    (h : exec i s = .next t) : effectDefined i s := by
  cases i with
  | putb b =>
    obtain ⟨hfit, -⟩ := storing_next ((command_of_check_none he hc).symm.trans h)
    exact hfit
  | splice =>
    obtain ⟨hfit, -⟩ := storing_next ((command_of_check_none he hc).symm.trans h)
    rwa [hex16_length] at hfit
  | strip =>
    obtain ⟨hhalted, -⟩ | ⟨x, -, rfl⟩ | ⟨-, -, z, hz, -⟩ := execStrip_next h
    · exact absurd he hhalted
    · obtain ⟨hhalted, -⟩ | ⟨y, -, hy, -⟩ | ⟨-, -, hnone⟩ := exec_next h
      · exact absurd he hhalted
      · cases hc.symm.trans hy
      · cases hnone
    · exact ⟨z, hz⟩
  | putc c =>
    obtain ⟨hprec, -⟩ := withPrecision_next ((command_of_check_none he hc).symm.trans h)
    exact hprec
  | cmp =>
    obtain ⟨hhalted, -⟩ | ⟨-, hprec, -⟩ := execCmp_next h
    · exact absurd he hhalted
    · exact hprec
  | hdr | mark | pad | setnl | setnh | setd0 | setd1 | setd2 | setd3 | setd4 => trivial

/-- A command ran: its check passed and the model gives it the effect that `t` shows. -/
structure Ran (i : Instr) (s t : State) : Prop where
  check : checkOf i s = none
  defined : effectDefined i s
  effect : t = effectOf i s

/-- Everything a command can answer with a next state: a discard, the fault its check found, its effect. -/
theorem exec_next_cases {i : Instr} {s t : State} (h : exec i s = .next t) :
    (s.err ≠ none ∧ t = s) ∨ (∃ x, s.err = none ∧ checkOf i s = some x ∧ t = raise x (encode i) s) ∨
      (s.err = none ∧ Ran i s t) := by
  obtain hhalted | hraise | ⟨he, hc, -⟩ := exec_next h
  · exact .inl hhalted
  · exact .inr (.inl hraise)
  · have hd := effectDefined_of_exec_next he hc h
    exact .inr (.inr ⟨he, hc, hd, Host.Outcome.next.inj (h.symm.trans (exec_effect he hc hd))⟩)

/-- What holds of the state itself, of the state with a fault raised and of the state after the effect holds of every
next state of a command. -/
theorem exec_next_induction {C : State → Prop} {i : Instr} {s t : State} (h : exec i s = .next t) (hs : C s)
    (hraise : ∀ x, C (raise x (encode i) s)) (heffect : Ran i s t → C (effectOf i s)) : C t := by
  obtain ⟨-, rfl⟩ | ⟨x, -, -, rfl⟩ | ⟨-, hran⟩ := exec_next_cases h
  · exact hs
  · exact hraise x
  · exact hran.effect ▸ heffect hran

/-- The same for a word. -/
theorem execWord_next_induction {C : State → Prop} {w : CmdWord} {s t : State} (h : execWord w s = .next t) (hs : C s)
    (hraise : ∀ x, C (raise x w s)) (heffect : ∀ i, decode w = .command i → Ran i s t → C (effectOf i s)) : C t := by
  obtain ⟨-, rfl⟩ | ⟨-, -, rfl⟩ | ⟨-, i, hi, hexec⟩ := execWord_next h
  · exact hs
  · exact hraise .illegalCommand
  · exact exec_next_induction hexec hs (fun x => encode_of_decode hi ▸ hraise x) (heffect i hi)

/-! ## Progress -/

/-- Where every byte below `n` holds a value the scan of STRIP meets a `0x00` or runs through. -/
theorem Memory.scanZero_of_written {m : Memory} {n : Nat} (h : ∀ a, a < n → (Memory.read m a).isSome = true)
    (hscan : Memory.scanZero m 0 n ≠ .noZero) : ∃ z, Memory.scanZero m 0 n = .zeroAt z := by
  rcases Memory.scanZero_cases m 0 n with ⟨z, hz, -⟩ | ⟨hno, -⟩ | ⟨z, -, -, hlt, hnone, -⟩
  · exact ⟨z, hz⟩
  · exact absurd hno hscan
  · have hsome := h z (by omega)
    simp [hnone] at hsome

/-- Where the invariants hold the model gives every command whose check passes its effect. -/
theorem Inv.effectDefined {i : Instr} {s : State} (h : Inv s) (hc : checkOf i s = none) : effectDefined i s := by
  obtain ⟨hext, hcap⟩ := h.extent
  obtain ⟨-, hprec, -⟩ := h.precision
  cases i with
  | putb b =>
    obtain ⟨-, hne⟩ := checkPutb_eq_none.1 hc
    exact lt_of_le_of_ne (hext.trans hcap) hne
  | splice =>
    obtain ⟨hin, -⟩ := h.placeholder (checkSplice_eq_none.1 hc)
    exact hin.trans (hext.trans hcap)
  | strip =>
    obtain ⟨-, hscan⟩ := checkStrip_eq_none.1 hc
    exact Memory.scanZero_of_written (fun a ha => h.written a (by omega)) hscan
  | putc | cmp => exact hprec
  | hdr | mark | pad | setnl | setnh | setd0 | setd1 | setd2 | setd3 | setd4 => trivial

theorem Inv.exec_progress {s : State} (h : Inv s) (i : Instr) : ∃ t, exec i s = .next t := by
  by_cases he : s.err = none
  · cases hc : checkOf i s with
    | none => exact ⟨_, exec_effect he hc (h.effectDefined hc)⟩
    | some x => exact ⟨_, exec_of_check he hc⟩
  · exact ⟨s, exec_halted i he⟩

theorem Inv.execWord_progress {s : State} (h : Inv s) (w : CmdWord) : ∃ t, execWord w s = .next t := by
  cases hd : decode w with
  | command i => exact execWord_of_decode s hd ▸ h.exec_progress i
  | illegal why =>
    by_cases he : s.err = none
    · exact ⟨_, execWord_illegal he hd⟩
    · exact ⟨s, execWord_halted w he⟩

/-! ## The model's own stops (log entries 3, 5 and 6) -/

theorem storing_outside {a : Nat} {bs : List Byte} {s : State} {k : State → Result} (h : s.capacity < a + bs.length) :
    storing a bs s k = .fault (.outsideBuffer a) :=
  if_neg (Nat.not_le.2 h)

theorem withPrecision_refused {s : State} {effect : Result} (h : 160 < s.prec.toNat) :
    withPrecision s effect = .refused (.precisionOutOfRange s.prec.toNat) :=
  if_neg (Nat.not_le.2 h)

/-- Two numbers of which each is the first where `P` fails are the same. -/
theorem eq_of_first_failing {P : Nat → Prop} {y z : Nat} (hy : ¬ P y) (hbeforey : ∀ a, a < y → P a) (hz : ¬ P z)
    (hbeforez : ∀ a, a < z → P a) : y = z :=
  le_antisymm (not_lt.1 fun h => hz (hbeforey z h)) (not_lt.1 fun h => hy (hbeforez y h))

/-- The scan stops at the first byte with no value, where only bytes other than `0x00` stand before it. -/
theorem Memory.scanZero_of_noValue {m : Memory} {n z : Nat} (hlt : z < n) (hnone : Memory.read m z = none)
    (hbefore : ∀ a, a < z → ∃ b, Memory.read m a = some b ∧ b ≠ 0) : Memory.scanZero m 0 n = .noValue z := by
  have hz : ¬ ∃ b, Memory.read m z = some b ∧ b ≠ 0 := by simp [hnone]
  rcases Memory.scanZero_cases m 0 n with ⟨y, -, -, -, hzero, hfront⟩ | ⟨-, hall⟩ | ⟨y, hscan, -, -, hhole, hfront⟩
  · cases eq_of_first_failing (by simp [hzero]) (fun a => hfront a a.zero_le) hz hbefore
    cases hnone.symm.trans hzero
  · exact absurd (hall z z.zero_le (by omega)) hz
  · rwa [eq_of_first_failing (by simp [hhole]) (fun a => hfront a a.zero_le) hz hbefore] at hscan

/-! ## The obligations about stops and progress -/

/-- Settles O52: where the invariants hold no store leaves the buffer, no data byte is without a value and the precision
is at most 160. -/
theorem everyEventHasNextState : Obligations.EveryEventHasNextState := by
  intro s h
  cases hport : s.port with
  | nil => exact ⟨s, step_idle hport⟩
  | cons event rest =>
    cases event with
    | reset => exact ⟨_, step_reset hport⟩
    | command w => exact step_command hport ▸ (h.setNonceDigestPort s.nonce s.digest rest).execWord_progress w

/-- Settles O43: the command's check passes, and the operation behind it stops. -/
theorem stopsOutsideInvariants : Obligations.StopsOutsideInvariants := by
  intro s he
  refine ⟨fun b hp hbig => ?_, fun hm hbig => ?_, fun z hp hlt hnone hbefore => ?_, fun hbig => ?_,
    fun c hl hbig hhex => ?_⟩
  · exact (command_of_check_none he (checkPutb_eq_none.2 ⟨hp, hbig.ne'⟩)).trans
      (storing_outside (by rw [List.length_singleton]; omega))
  · exact (command_of_check_none he (checkSplice_eq_none.2 hm)).trans (storing_outside (by rwa [hex16_length]))
  · have hscan := Memory.scanZero_of_noValue hlt hnone hbefore
    refine (command_of_check_none he (checkStrip_eq_none.2 ⟨hp, by simp [hscan]⟩)).trans ?_
    rw [hscan]
  · exact (command_runs (w := encode .cmp) he).trans (withPrecision_refused hbig)
  · have hc := checkPutc_eq_none.2 ⟨hl, by omega, Option.ne_none_iff_exists'.1 hhex⟩
    exact (command_of_check_none he hc).trans (withPrecision_refused hbig)

end Sys2Proof.Machine
end

section
/-! Frames (10_state.md section 8): the bytes each command stores and the registers it leaves, the padded message in the
buffer, and what PAD and CMP freeze. -/

namespace Sys2Proof.Machine

open Sys2Proof

/-! ## What a command leaves unchanged -/

theorem sameBuffer.refl (s : State) : sameBuffer s s := fun _ => rfl

theorem sameBuffer.sameOutside {s t : State} (h : sameBuffer s t) (a n : Nat) : sameOutside s t a n := fun x _ => h x

theorem onlyRaised_raise {i : Instr} {s : State} (he : s.err = none) (x : Cause) :
    onlyRaised i s (raise x (encode i) s) :=
  ⟨x, he, rfl⟩

theorem effectOf_sameOutside (i : Instr) (s : State) :
    sameOutside s (effectOf i s) (storeOf i s).1 (storeOf i s).2.length := fun x hx => by
  rw [State.byte, effectOf, Memory.read_writeList_outside hx, State.byte]

theorem effectOf_sameBuffer {i : Instr} {s : State} (h : storeOf i s = (0, [])) : sameBuffer s (effectOf i s) :=
  fun x => by rw [State.byte, effectOf, h, Memory.writeList, State.byte]

theorem exec_sameOutside {i : Instr} {s t : State} (h : exec i s = .next t) :
    sameOutside s t (storeOf i s).1 (storeOf i s).2.length :=
  exec_next_induction (C := fun t => sameOutside s t (storeOf i s).1 (storeOf i s).2.length) h
    (fun _ _ => rfl) (fun _ _ _ => rfl) fun _ => effectOf_sameOutside i s

theorem exec_sameBuffer {i : Instr} {s t : State} (hstore : storeOf i s = (0, [])) (h : exec i s = .next t) :
    sameBuffer s t :=
  exec_next_induction h (.refl s) (fun _ _ => rfl) fun _ => effectOf_sameBuffer hstore

/-- A command that raises no fault answers the state it found or the state after its effect. -/
theorem exec_next_unchecked {i : Instr} {s t : State} (hc : checkOf i s = none) (h : exec i s = .next t) :
    t = s ∨ t = effectOf i s := by
  obtain ⟨-, ht⟩ | ⟨x, -, hx, -⟩ | ⟨-, hran⟩ := exec_next_cases h
  · exact .inl ht
  · cases hc.symm.trans hx
  · exact .inr hran.effect

/-- A frame that holds of the state itself and of the state after the effect holds of every next state, or a fault was
raised. -/
theorem exec_frame {C : State → Prop} {i : Instr} {s t : State} (h : exec i s = .next t) (hs : C s)
    (heffect : Ran i s t → C (effectOf i s)) : C t ∨ (sameBuffer s t ∧ onlyRaised i s t) := by
  obtain ⟨-, rfl⟩ | ⟨x, he, -, rfl⟩ | ⟨-, hran⟩ := exec_next_cases h
  · exact .inl hs
  · exact .inr ⟨fun _ => rfl, onlyRaised_raise he x⟩
  · exact .inl (hran.effect ▸ heffect hran)

/-! ## The frame obligations -/

/-- Settles O34: these commands make no check, and their effect is one register. -/
theorem frameNonceAndDigest : Obligations.FrameNonceAndDigest := by
  refine fun v s t => ⟨fun h => ?_, fun h => ?_, fun h => ?_, fun h => ?_, fun h => ?_, fun h => ?_, fun h => ?_⟩
  case refine_1 =>
    obtain rfl | rfl := exec_next_unchecked rfl h
    · exact ⟨rfl, rfl, .refl _⟩
    · exact ⟨rfl, BitVec.extractLsb'_append_eq_left, effectOf_sameBuffer rfl⟩
  case refine_2 =>
    obtain rfl | rfl := exec_next_unchecked rfl h
    · exact ⟨rfl, rfl, .refl _⟩
    · exact ⟨rfl, BitVec.extractLsb'_append_eq_right, effectOf_sameBuffer rfl⟩
  all_goals
    obtain rfl | rfl := exec_next_unchecked rfl h
    · exact ⟨rfl, .refl _⟩
    · exact ⟨rfl, effectOf_sameBuffer rfl⟩

/-- Settles O35: none of the three stores; the digit that PUTC replaces lies in one word of the Target. -/
theorem frameTargetMatchAndStrip : Obligations.FrameTargetMatchAndStrip := by
  refine fun c s t => ⟨fun h => ⟨exec_sameBuffer rfl h, ?_⟩, fun h => ⟨exec_sameBuffer rfl h, ?_⟩,
    fun h => ⟨exec_sameBuffer rfl h, ?_⟩⟩
  · refine (exec_frame (C := fun t => t = { s with target := t.target, prec := t.prec } ∧
      ∀ j, j ≤ 4 → j ≠ s.prec.toNat / 4 / 8 → t.target.get j = s.target.get j) h ⟨rfl, fun _ _ _ => rfl⟩
      fun hran => ⟨rfl, fun j hj hne => ?_⟩).imp_right And.right
    obtain ⟨-, hprec, -⟩ := checkPutc_eq_none.1 hran.check
    have hdefined : s.prec.toNat ≤ 160 := hran.defined
    exact putTargetDigit_get_other _ (by omega) hj hne _
  · obtain rfl | rfl := exec_next_unchecked rfl h
    · rfl
    · rfl
  · exact (exec_frame (C := fun t => t = { s with objOff := t.objOff, objLen := t.objLen, stripped := t.stripped })
      h rfl fun _ => rfl).imp_right And.right

/-- Settles O36: the stores of the three commands by `storeOf`, and their registers by `registersOf`. -/
theorem frameAppendingCommands : Obligations.FrameAppendingCommands := by
  refine fun n b s t => ⟨fun h => ⟨exec_sameOutside h, ?_⟩, fun h => ⟨exec_sameOutside h, ?_⟩,
    fun h => ⟨exec_sameOutside h, ?_⟩⟩
  · exact exec_frame (C := fun t =>
      t = { s with mb := t.mb, len := t.len, hlen := t.hlen, bodyLen := t.bodyLen, hdrDone := t.hdrDone })
      h rfl fun _ => by simp only [effectOf, registersOf]
  · exact exec_frame (C := fun t => t = { s with mb := t.mb, len := t.len })
      h rfl fun _ => by simp only [effectOf, registersOf]
  · exact exec_frame (C := fun t => t = { s with mb := t.mb, poff := t.poff, len := t.len, marked := t.marked })
      h rfl fun _ => by simp only [effectOf, registersOf]

/-- Settles O37: the padding and the nonce's characters have the lengths that the frame names. -/
theorem framePadAndSplice : Obligations.FramePadAndSplice := by
  refine fun s t => ⟨fun h => ⟨?_, ?_⟩, fun h => ⟨?_, ?_⟩⟩
  · rw [← padTail_length]
    exact exec_sameOutside h
  · exact exec_frame (C := fun t => t = { s with mb := t.mb, plen := t.plen, padded := t.padded })
      h rfl fun _ => by simp only [effectOf, registersOf]
  · rw [← hex16_length s.nonce]
    exact exec_sameOutside h
  · exact exec_frame (C := fun t => t = { s with mb := t.mb }) h rfl fun _ => by simp only [effectOf, registersOf]

/-! ## Only STRIP reads the buffer -/

section
variable {i : Instr} (hi : i ≠ .strip) (s : State) (m : Memory)
include hi

theorem checkOf_setMb : checkOf i { s with mb := m } = checkOf i s := by
  cases i with
  | strip => exact absurd rfl hi
  | _ => rfl

theorem effectDefined_setMb : effectDefined i { s with mb := m } ↔ effectDefined i s := by
  cases i with
  | strip => exact absurd rfl hi
  | _ => rfl

theorem storeOf_setMb : storeOf i { s with mb := m } = storeOf i s := by
  cases i with
  | strip => exact absurd rfl hi
  | _ => rfl

theorem registersOf_setMb : registersOf i { s with mb := m } = { registersOf i s with mb := m } := by
  cases i with
  | strip => exact absurd rfl hi
  | _ => rfl

/-- Over another buffer the effect has the same registers and the same store. -/
theorem effectOf_setMb :
    effectOf i { s with mb := m } =
      { effectOf i s with mb := Memory.writeList m (storeOf i s).1 (storeOf i s).2 } := by
  rw [effectOf, registersOf_setMb hi, storeOf_setMb hi, effectOf]

end

/-- One store into two buffers: at every address the byte is the same, or each buffer keeps its own. -/
theorem Memory.read_writeList_two (m m' : Memory) (a : Nat) (bs : List Byte) (x : Nat) :
    Memory.read (Memory.writeList m a bs) x = Memory.read (Memory.writeList m' a bs) x ∨
      (Memory.read (Memory.writeList m a bs) x = Memory.read m x ∧
        Memory.read (Memory.writeList m' a bs) x = Memory.read m' x) := by
  by_cases hx : a ≤ x ∧ x < a + bs.length
  · left
    rw [Memory.read_writeList, if_pos hx, Memory.read_writeList, if_pos hx]
  · exact .inr ⟨Memory.read_writeList_outside hx, Memory.read_writeList_outside hx⟩

/-- Settles O38: the check, the domain and the store of a command other than STRIP depend on registers alone. -/
theorem onlyStripReadsBuffer : Obligations.OnlyStripReadsBuffer := by
  intro i s t m hi h
  obtain ⟨hhalted, rfl⟩ | ⟨x, he, hc, rfl⟩ | ⟨he, hran⟩ := exec_next_cases h
  · exact ⟨m, exec_halted i hhalted, fun _ => .inr ⟨rfl, rfl⟩⟩
  · refine ⟨m, ?_, fun _ => .inr ⟨rfl, rfl⟩⟩
    exact exec_of_check he ((checkOf_setMb hi s m).trans hc)
  · have hrun := exec_effect (s := { s with mb := m }) he ((checkOf_setMb hi s m).trans hran.check)
      ((effectDefined_setMb hi s m).2 hran.defined)
    rw [effectOf_setMb hi, ← hran.effect] at hrun
    refine ⟨_, hrun, fun a => ?_⟩
    rw [hran.effect, effectOf]
    exact Memory.read_writeList_two m s.mb _ _ a

/-! ## The padded message -/

/-- Settles O33: the padding stands right behind the data, so the buffer reads as the data and their padding. -/
theorem padLeavesPaddedMessage : Obligations.PadLeavesPaddedMessage := by
  intro s d he hp hl hfit hd
  have hdata : HoldsData s d := by
    have hlen : d.length = s.len.toNat := (Memory.readList_eq_some.1 hd).1
    exact ⟨hlen.symm, hlen ▸ hd⟩
  refine ⟨_, exec_pad_of_fits he hp hl hfit, ?_, rfl, rfl⟩
  dsimp only
  rw [State.toNat_ofNat_of_le_capacity hfit, hdata.readList_padTail]

/-- Settles O49: the padded length is a multiple of 64, and every byte below it holds a value. -/
theorem messageBlocksCoverMessage : Obligations.MessageBlocksCoverMessage := by
  refine fun s hs => ⟨fun hp => ?_, fun hp k => ?_⟩
  · obtain ⟨hplen, -⟩ := hs.isPadded hp
    obtain ⟨-, -, hmod⟩ := padLen_bounds s.len.toNat
    have hblocks : s.messageBlocks = s.plen.toNat / 64 := if_pos hp
    have hvext := vext_of_padded hp
    refine ⟨by omega, fun k hk => ?_⟩
    obtain ⟨bs, hbs⟩ := Memory.readList_isSome (m := s.mb) (a := 64 * k) (n := 64) fun i hi => hs.written _ (by omega)
    obtain ⟨hlen, hbytes⟩ := Memory.readList_eq_some.1 hbs
    exact ⟨bs, (if_pos hk).trans hbs, hlen, hbytes⟩
  · have hblocks : s.messageBlocks = 0 := by simp [State.messageBlocks, hp]
    exact if_neg (by omega)

/-! ## What PAD freezes (70_reset_and_hazards.md section 3) -/

/-- The registers and the bytes that PAD freezes are in `t` as in `s`. -/
structure DataKept (s t : State) : Prop where
  padded : t.padded = s.padded
  marked : t.marked = s.marked
  len : t.len = s.len
  plen : t.plen = s.plen
  poff : t.poff = s.poff
  hlen : t.hlen = s.hlen
  bodyLen : t.bodyLen = s.bodyLen
  outside : s.marked = true → sameOutside s t s.poff.toNat 16
  buffer : s.marked = false → sameBuffer s t

theorem DataKept.refl (s : State) : DataKept s s :=
  ⟨rfl, rfl, rfl, rfl, rfl, rfl, rfl, fun _ _ _ => rfl, fun _ _ => rfl⟩

/-- Over another buffer only the clauses about bytes are to be shown. -/
theorem DataKept.setMb {s t : State} (h : DataKept s t) {m : Memory}
    (houtside : s.marked = true → sameOutside s { t with mb := m } s.poff.toNat 16)
    (hbuffer : s.marked = false → sameBuffer s { t with mb := m }) : DataKept s { t with mb := m } :=
  { h with outside := houtside, buffer := hbuffer }

/-- On a frozen buffer the check of a command that appends or pads does not pass; of the others only SPLICE stores, and
only where there is a placeholder. -/
theorem frozen_of_check {i : Instr} {s : State} (hp : s.padded = true) (hc : checkOf i s = none) :
    DataKept s (registersOf i s) ∧ (i = .splice ∧ s.marked = true ∨ storeOf i s = (0, [])) := by
  have hfrozen : s.padded ≠ false := by simp [hp]
  cases i with
  | hdr => exact absurd (checkHdr_eq_none.1 hc).1 hfrozen
  | putb => exact absurd (checkPutb_eq_none.1 hc).1 hfrozen
  | mark => exact absurd (checkMark_eq_none.1 hc).1 hfrozen
  | pad => exact absurd (checkPad_eq_none.1 hc).1 hfrozen
  | splice => exact ⟨.refl s, .inl ⟨rfl, checkSplice_eq_none.1 hc⟩⟩
  | setnl | setnh | strip | putc | cmp | setd0 | setd1 | setd2 | setd3 | setd4 =>
    exact ⟨{ DataKept.refl s with }, .inr rfl⟩

theorem effectOf_dataKept {i : Instr} {s : State} (hp : s.padded = true) (hc : checkOf i s = none) :
    DataKept s (effectOf i s) := by
  obtain ⟨hregs, ⟨rfl, hm⟩ | hstore⟩ := frozen_of_check hp hc
  · have houtside := effectOf_sameOutside .splice s
    rw [storeOf, hex16_length] at houtside
    exact hregs.setMb (fun _ => houtside) fun hno => absurd (hm.symm.trans hno) Bool.false_ne_true.symm
  · have hsame := effectOf_sameBuffer hstore
    exact hregs.setMb (fun _ => hsame.sameOutside _ _) fun _ => hsame

/-- Settles O54: neither a discard nor a fault nor the effect of a command on a frozen buffer changes the data. -/
theorem dataFrozenAfterPad : Obligations.DataFrozenAfterPad := by
  intro w s t hp h
  have hkept : DataKept s t := execWord_next_induction h (.refl s) (fun _ => { DataKept.refl s with })
    fun _ _ hran => effectOf_dataKept hp hran.check
  obtain ⟨hpadded, hmarked, hlen, hplen, hpoff, hhlen, hbody, houtside, hbuffer⟩ := hkept
  exact ⟨hpadded.trans hp, hmarked, hlen, hplen, hpoff, hhlen, hbody, houtside, hbuffer⟩

/-! ## What CMP freezes (10_state.md section 5) -/

theorem effectOf_tlock {i : Instr} (hi : i ≠ .cmp) (s : State) : (effectOf i s).tlock = s.tlock := by
  cases i with
  | cmp => exact absurd rfl hi
  | _ => simp only [effectOf, registersOf, recordObject_tlock, recordDigit_tlock]

theorem eq_putc_of_enteredCharacter {i : Instr} {c : Byte} (h : enteredCharacter i = some c) : i = .putc c := by
  cases i with
  | putc b => exact congrArg Instr.putc (Option.some.inj h)
  | _ => cases h

/-- Only a command that enters a character writes the Target. -/
theorem effectOf_target {i : Instr} (hi : enteredCharacter i = none) (s : State) :
    (effectOf i s).target = s.target ∧ (effectOf i s).prec = s.prec := by
  cases i with
  | putc c => cases hi
  | _ => simp [effectOf, registersOf]

/-- PUTC does not pass its check where the Target is locked. -/
theorem effectOf_target_of_locked {i : Instr} {s : State} (hl : s.tlock = true) (hc : checkOf i s = none) :
    (effectOf i s).target = s.target ∧ (effectOf i s).prec = s.prec := by
  cases hi : enteredCharacter i with
  | none => exact effectOf_target hi s
  | some c =>
    cases eq_putc_of_enteredCharacter hi
    obtain ⟨hfree, -⟩ := checkPutc_eq_none.1 hc
    exact absurd (hl.symm.trans hfree) Bool.false_ne_true.symm

/-- No effect takes the lock away. -/
theorem effectOf_tlock_of_locked (i : Instr) {s : State} (hl : s.tlock = true) : (effectOf i s).tlock = true := by
  by_cases hi : i = .cmp
  · subst hi
    rfl
  · exact (effectOf_tlock hi s).trans hl

/-- Settles O55: PUTC fails its check under the lock, and no effect but that of CMP writes the lock. -/
theorem targetFrozenAfterCmp : Obligations.TargetFrozenAfterCmp := by
  refine fun w s t h => ⟨fun hl => ?_, fun he hcmp => ?_, fun hl => ?_⟩
  · exact execWord_next_induction (C := fun t => t.tlock = true ∧ t.target = s.target ∧ t.prec = s.prec) h
      ⟨hl, rfl, rfl⟩ (fun _ => ⟨hl, rfl, rfl⟩) fun i _ hran =>
        ⟨effectOf_tlock_of_locked i hl, effectOf_target_of_locked hl hran.check⟩
  · rw [execWord_command he hcmp] at h
    obtain ⟨hhalted, -⟩ | ⟨-, -, rfl⟩ := execCmp_next h
    · exact absurd he hhalted
    · rfl
  · have hopen : s.tlock ≠ true := by simp [hl]
    refine execWord_next_induction (C := fun t => t.tlock = true → decode w = .command .cmp) h
      (fun hset => absurd hset hopen) (fun _ hset => absurd hset hopen) fun i hi _ hset => ?_
    by_cases hcmp : i = .cmp
    · exact hcmp ▸ hi
    · exact absurd ((effectOf_tlock hcmp s).symm.trans hset) hopen

/-! ## The build's capacity, and the state after reset -/

/-- Settles O53: a word keeps the capacity, since no effect writes it, and so does a reset. -/
theorem capacityIsConstant : Obligations.CapacityIsConstant := by
  intro s t h
  obtain ⟨-, rfl⟩ | ⟨rest, -, rfl⟩ | ⟨w, rest, -, hword⟩ := step_next h
  · rfl
  · rfl
  · exact execWord_next_induction (C := fun t => t.cap = s.cap) hword rfl (fun _ => rfl) fun i _ _ => effectOf_cap i _

/-- Settles O50: the state after reset is what a reset event leaves. -/
theorem invariantsHoldAfterReset : Obligations.InvariantsHoldAfterReset :=
  ⟨inv_resetEvent State.reset, fun c => inv_resetEvent { State.reset with cap := c }⟩

end Sys2Proof.Machine
end

section
/-! The assembler (30_encoding.md section 6): the line that writes a command reads back, and the pseudo-instructions. -/

namespace Sys2Proof.Machine

open Sys2Proof

/-! ## Commands and source lines -/

/-- A command's source line stands for the command (rule R67). -/
theorem instrOfLine_source (i : Instr) : instrOfLine i.source = some i := by
  have hwf : i.source.wellFormed = true := instr_wellFormed i
  rw [instrOfLine, if_pos hwf]
  cases i with
  | mark | pad | splice | strip | cmp => rfl
  | hdr | putb | setnl | setnh | putc | setd0 | setd1 | setd2 | setd3 | setd4 =>
    simp [Instr.source, Instr.mnemonic, Instr.operand]

/-- Every operand is a number of at most 32 bits. -/
theorem operand_lt {i : Instr} {v : Nat} (h : i.operand = some v) : v < 2 ^ 32 := by
  cases i with
  | mark | pad | splice | strip | cmp => cases h
  | putb b | putc b =>
    cases h
    have := b.isLt
    omega
  | hdr n | setnl n | setnh n | setd0 n | setd1 n | setd2 n | setd3 n | setd4 n =>
    cases h
    exact n.isLt

/-! ## Spaces, separators and tokens -/

/-- The characters that end a token: a space, a comma, a semicolon. -/
def separators : List Byte := [0x20, 0x2C, 0x3B]

theorem skipSpaces_of_head {c : Byte} {r : List Byte} (h : c ∉ separators) : skipSpaces (c :: r) = c :: r := by
  rw [skipSpaces, if_neg fun hc => h (by simp [hc, separators])]

theorem endsHere_of_head {c : Byte} {r : List Byte} (h : c ∉ separators) : endsHere (c :: r) = false := by
  rw [endsHere, skipSpaces_of_head h]
  exact beq_eq_false_iff_ne.2 fun hc => h (by simp [hc, separators])

/-- A token ends before a space or at the end of the line. -/
theorem takeToken_append {t r : List Byte} (ht : ∀ c ∈ t, c ∉ separators) (hr : r = [] ∨ ∃ r', r = 0x20 :: r') :
    takeToken (t ++ r) = (t, r) := by
  induction t with
  | nil =>
    obtain rfl | ⟨r', rfl⟩ := hr
    · rfl
    · simp [takeToken]
  | cons c t ih =>
    have hc : ¬ (c = 0x20 ∨ c = 0x2C ∨ c = 0x3B) := by simpa [separators] using ht c List.mem_cons_self
    rw [List.cons_append, takeToken, if_neg hc, ih fun b hb => ht b (List.mem_cons_of_mem c hb)]

/-! ## Decimal numerals -/

theorem hexval_decDigit {d : Nat} (h : d < 10) : hexval (decDigit d) = some (BitVec.ofNat 4 d) := by
  interval_cases d <;> rfl

theorem not_mem_dec {n : Nat} (h : n < 2 ^ 32) {c : Byte} (hc : ∀ d, d < 10 → decDigit d ≠ c) : c ∉ dec n := fun hmem => by
  obtain ⟨d, hd, heq⟩ := dec_digits h c hmem
  exact hc d hd heq.symm

theorem numeral_append (base acc : Nat) (xs ys : List Byte) :
    numeral base acc (xs ++ ys) = (numeral base acc xs).bind fun a => numeral base a ys := by
  induction xs generalizing acc with
  | nil => rfl
  | cons c xs ih =>
    rw [List.cons_append, numeral, numeral]
    cases hexval c with
    | none => rfl
    | some d =>
      dsimp only
      split
      · exact ih _
      · rfl

theorem numeral_decDigit (acc : Nat) {d : Nat} (h : d < 10) : numeral 10 acc [decDigit d] = some (acc * 10 + d) := by
  have hd : (BitVec.ofNat 4 d).toNat = d := by rw [BitVec.toNat_ofNat, Nat.mod_eq_of_lt (by omega)]
  simp [numeral, hexval_decDigit h, hd, h]

/-- Reading a decimal numeral gives its number: the last digit is the remainder, the digits before it the quotient. -/
theorem numeral_dec (n : Nat) (h : n < 2 ^ 32) : numeral 10 0 (dec n) = some n := by
  induction n using Nat.strongRecOn with
  | ind n ih =>
    by_cases hn : n < 10
    · rw [dec_of_lt hn, numeral_decDigit 0 hn, Nat.zero_mul, Nat.zero_add]
    · rw [dec_of_ge (by omega) h, numeral_append, ih (n / 10) (by omega) (by omega), Option.bind_some,
        numeral_decDigit _ (by omega), Nat.div_add_mod']

theorem not_mem_separators_of_mem_dec {n : Nat} (h : n < 2 ^ 32) : ∀ c ∈ dec n, c ∉ separators := by
  have hdigits : ∀ d, d < 10 → decDigit d ∉ separators := by decide
  intro c hc
  obtain ⟨d, hd, rfl⟩ := dec_digits h c hc
  exact hdigits d hd

theorem dec_eq_cons {n : Nat} (h : n < 2 ^ 32) : ∃ c r, dec n = c :: r ∧ c ∉ separators := by
  obtain ⟨hpos, -⟩ := dec_length h
  obtain ⟨c, r, hdec⟩ := List.exists_cons_of_length_pos hpos
  exact ⟨c, r, hdec, not_mem_separators_of_mem_dec h c (hdec ▸ List.mem_cons_self)⟩

/-- Text of decimal digits is a decimal number, for its second character is no `x`. -/
theorem numberOf_eq_numeral {r : List Byte} (hne : r ≠ []) (hx : 0x78 ∉ r) : numberOf r = numeral 10 0 r := by
  unfold numberOf
  split
  case h_1 => exact absurd rfl hne
  case h_2 => simp at hx
  case h_3 => simp at hx
  case h_4 => rfl

/-- Text that holds no quote is read as a number. -/
theorem operandOf_eq_numberOf {r : List Byte} (hq : 0x27 ∉ r) :
    operandOf r = (numberOf (takeToken r).1).map fun v => (v, (takeToken r).2) := by
  unfold operandOf
  split
  case h_1 => simp at hq
  case h_2 => simp at hq
  case h_3 => rfl

theorem operandOf_dec {n : Nat} (h : n < 2 ^ 32) : operandOf (dec n) = some (n, []) := by
  obtain ⟨c, r, hdec, -⟩ := dec_eq_cons h
  have hne : dec n ≠ [] := hdec ▸ List.cons_ne_nil c r
  have htoken := takeToken_append (not_mem_separators_of_mem_dec h) (.inl rfl)
  rw [List.append_nil] at htoken
  rw [operandOf_eq_numberOf (not_mem_dec h (by decide)), htoken, numberOf_eq_numeral hne (not_mem_dec h (by decide)),
    numeral_dec n h, Option.map_some]

/-! ## The line of a command -/

theorem mnemonicOf_mnemonicText (m : Mnemonic) : mnemonicOf (mnemonicText m) = some m := by
  cases m <;> rfl

theorem mnemonicText_ne_nil (m : Mnemonic) : mnemonicText m ≠ [] := by
  cases m <;> exact List.cons_ne_nil _ _

theorem not_mem_separators_of_mem_mnemonicText (m : Mnemonic) : ∀ c ∈ mnemonicText m, c ∉ separators := by
  cases m <;> simp [mnemonicText, separators]

/-- A line that begins with a mnemonic, and a space or nothing behind it, is read as that mnemonic's command. -/
theorem assembleLine_mnemonic (m : Mnemonic) {r : List Byte} (hr : r = [] ∨ ∃ r', r = 0x20 :: r') :
    assembleLine (mnemonicText m ++ r) = (commandOf m (skipSpaces r)).map fun i => [i] := by
  have hsep := not_mem_separators_of_mem_mnemonicText m
  obtain ⟨c, cs, hm⟩ := List.exists_cons_of_ne_nil (mnemonicText_ne_nil m)
  have hhead : c ∉ separators := hsep c (hm ▸ List.mem_cons_self)
  have htoken : takeToken (mnemonicText m ++ r) = (mnemonicText m, r) := takeToken_append hsep hr
  have hskip : skipSpaces (mnemonicText m ++ r) = mnemonicText m ++ r := by rw [hm]; exact skipSpaces_of_head hhead
  have hends : endsHere (mnemonicText m ++ r) = false := by rw [hm]; exact endsHere_of_head hhead
  simp [assembleLine, hskip, hends, htoken, mnemonicOf_mnemonicText]

theorem commandOf_dec (m : Mnemonic) {v : Nat} (hv : v < 2 ^ 32) : commandOf m (dec v) = instrOfLine ⟨m, some v⟩ := by
  obtain ⟨c, r, hdec, hc⟩ := dec_eq_cons hv
  have hends : endsHere (dec v) = false := by rw [hdec]; exact endsHere_of_head hc
  rw [commandOf, hends, operandOf_dec hv]
  rfl

theorem skipSpaces_space_dec {v : Nat} (hv : v < 2 ^ 32) : skipSpaces (0x20 :: dec v) = dec v := by
  obtain ⟨c, r, hdec, hc⟩ := dec_eq_cons hv
  rw [skipSpaces, if_pos rfl, hdec, skipSpaces_of_head hc]

/-- A rendered line is read as the source line it renders. -/
theorem assembleLine_renderLine (m : Mnemonic) {o : Option Nat} (ho : ∀ v, o = some v → v < 2 ^ 32) :
    assembleLine (renderLine (mnemonicText m) o) = (instrOfLine ⟨m, o⟩).map fun i => [i] := by
  cases o with
  | none =>
    have hline := assembleLine_mnemonic m (.inl (rfl : ([] : List Byte) = []))
    rwa [List.append_nil] at hline
  | some v =>
    have hv := ho v rfl
    rw [renderLine, List.append_assoc, List.singleton_append, assembleLine_mnemonic m (.inr ⟨_, rfl⟩),
      skipSpaces_space_dec hv, commandOf_dec m hv]

/-! ## The obligations of 30_encoding.md section 6 -/

/-- Settles O7: the mnemonic is the line's first token, and the decimal operand reads back as its number. -/
theorem assemblerReadsBackLine : Obligations.AssemblerReadsBackLine := fun i =>
  (assembleLine_renderLine i.mnemonic fun _ => operand_lt).trans (congrArg (Option.map _) (instrOfLine_source i))

/-- Settles O8: four expansions by definition, and DIGESTX by the words that its characters encode. -/
theorem pseudoInstructionsExpand : Obligations.PseudoInstructionsExpand := by
  refine ⟨fun _ => rfl, fun _ => rfl, fun _ => rfl, fun _ => rfl, fun x d p hlen henc => ?_⟩
  refine (if_pos hlen).trans ?_
  rw [henc]
  rfl

end Sys2Proof.Machine
end

section
/-! Entering a Target (41_target_match.md section 2): the Target after some characters is the Target of those characters,
whatever commands but CMP stand between them. -/

namespace Sys2Proof.Machine

open Sys2Proof

/-! ## One more digit of a Target -/

theorem Words5.ext_digit {x y : Words5} (h : ∀ k, k < 40 → x.digit k = y.digit k) : x = y :=
  prefixMatch_160_iff.1 ((prefixMatch_iff_digits (n := 40) le_rfl).2 h)

theorem digit_putTargetDigit (t : Words5) {k j : Nat} (d : BitVec 4) (hk : k < 40) (hj : j < 40) :
    (putTargetDigit t k d).digit j = if j = k then d else t.digit j := by
  by_cases hword : j / 8 = k / 8
  · rw [Words5.digit, hword, putTargetDigit_get_same t hk, digitShift]
    split
    case isTrue heq => rw [heq, setDigit_digit _ (by omega)]
    case isFalse hne => rw [setDigit_other _ (by omega) (by omega), Words5.digit, hword]
  · rw [Words5.digit, putTargetDigit_get_other t hk (by omega) hword, if_neg (by omega), Words5.digit]

theorem prefixDigit_concat (cs : List Byte) {c : Byte} {d : BitVec 4} (hd : hexval c = some d) (i : Nat) :
    prefixDigit (cs ++ [c]) i = if i = cs.length then d else prefixDigit cs i := by
  rcases Nat.lt_trichotomy i cs.length with hlt | rfl | hgt
  · rw [if_neg hlt.ne, prefixDigit, prefixDigit, List.getElem?_append_left hlt]
  · rw [if_pos rfl, prefixDigit, List.getElem?_concat_length, Option.bind_some, hd, Option.getD_some]
  · rw [if_neg hgt.ne', prefixDigit_of_ge (by rw [List.length_append, List.length_singleton]; omega),
      prefixDigit_of_ge hgt.le]

/-- Entering a digit behind `n` characters gives the Target of one character more. -/
theorem putTargetDigit_digitsTarget {cs : List Byte} {c : Byte} {d : BitVec 4} (hlen : cs.length < 40)
    (hd : hexval c = some d) :
    putTargetDigit (digitsTarget (prefixDigit cs)) cs.length d = digitsTarget (prefixDigit (cs ++ [c])) := by
  refine Words5.ext_digit fun k hk => ?_
  rw [digit_putTargetDigit _ d hlen hk, digitsTarget_digit _ hk, digitsTarget_digit _ hk, prefixDigit_concat cs hd]

/-! ## Valid characters -/

/-- Characters are valid exactly when they are at most 40 and all of them hexadecimal (rule R90). -/
theorem targetEncode_eq_none_iff {cs : List Byte} :
    targetEncode cs = none ↔ cs.length > 40 ∨ ∃ c ∈ cs, hexval c = none := by
  refine ⟨fun h => ?_, targetEncode_of_invalid⟩
  by_contra hvalid
  push Not at hvalid
  obtain ⟨hlen, hhex⟩ := hvalid
  cases h.symm.trans (targetEncode_of_valid hlen hhex)

/-- One more character makes valid characters invalid exactly when it is not hexadecimal or is the 41st. -/
theorem targetEncode_concat_eq_none_iff {cs : List Byte} {c : Byte} {p : Words5 × Nat} (h : targetEncode cs = some p) :
    targetEncode (cs ++ [c]) = none ↔ hexval c = none ∨ cs.length = 40 := by
  obtain ⟨hlen, hhex, -⟩ := targetEncode_eq_some h
  have hfront : ¬ ∃ b ∈ cs, hexval b = none := fun ⟨b, hb, hnone⟩ => hhex b hb hnone
  rw [targetEncode_eq_none_iff, List.length_append, List.length_singleton]
  simp only [List.mem_append, List.mem_singleton, or_and_right, exists_or, exists_eq_left, hfront, false_or]
  rw [or_comm]
  exact or_congr_right (by omega)

theorem targetEncode_append_eq_none {cs : List Byte} (h : targetEncode cs = none) (ds : List Byte) :
    targetEncode (cs ++ ds) = none := by
  rw [targetEncode_eq_none_iff, List.length_append] at *
  obtain hlen | ⟨c, hc, hnone⟩ := h
  · exact .inl (by omega)
  · exact .inr ⟨c, List.mem_append_left ds hc, hnone⟩

/-- Valid characters are valid without the last one, which is hexadecimal and at most the 40th. -/
theorem targetEncode_concat_eq_some {cs : List Byte} {c : Byte} {q : Words5 × Nat}
    (h : targetEncode (cs ++ [c]) = some q) :
    ∃ t p d, targetEncode cs = some (t, p) ∧ hexval c = some d ∧ cs.length < 40 := by
  obtain ⟨hlen, hhex, -⟩ := targetEncode_eq_some h
  rw [List.length_append, List.length_singleton] at hlen
  obtain ⟨d, hd⟩ := Option.ne_none_iff_exists'.1 (hhex c (List.mem_append_right cs List.mem_cons_self))
  exact ⟨_, _, d, targetEncode_of_valid (by omega) fun b hb => hhex b (List.mem_append_left [c] hb), hd, hlen⟩

/-- Invalid characters split at the first that is not hexadecimal or is the 41st. -/
theorem exists_first_invalid {cs : List Byte} (h : targetEncode cs = none) :
    ∃ front c back p, cs = front ++ c :: back ∧ targetEncode front = some p ∧ (hexval c = none ∨ front.length = 40) := by
  induction cs using List.reverseRecOn with
  | nil => cases h
  | append_singleton cs c ih =>
    cases hcs : targetEncode cs with
    | some p => exact ⟨cs, c, [], p, rfl, hcs, (targetEncode_concat_eq_none_iff hcs).1 h⟩
    | none =>
      obtain ⟨front, b, back, p, rfl, hfront, hb⟩ := ih hcs
      exact ⟨front, b, back ++ [c], p, by simp, hfront, hb⟩

/-! ## The characters entered -/

/-- The Target and the precision are those of the characters `cs` (rule R91). -/
def Entered (cs : List Byte) (s : State) : Prop := targetEncode cs = some (s.target, s.prec.toNat)

theorem entered_nil {s : State} (hp : s.prec = 0) (ht : s.target = ⟨0, 0, 0, 0, 0⟩) : Entered [] s := by
  rw [Entered, hp, ht]
  decide

theorem Entered.prec_eq {cs : List Byte} {s : State} (h : Entered cs s) : s.prec.toNat = 4 * cs.length := by
  obtain ⟨-, -, -, hprec⟩ := targetEncode_eq_some h
  exact hprec

theorem entered_of_targetEncode {cs : List Byte} {t : Words5} {p : Nat} (h : targetEncode cs = some (t, p)) (s : State) :
    Entered cs { s with target := t, prec := BitVec.ofNat 8 p } := by
  obtain ⟨hlen, -, -, hp⟩ := targetEncode_eq_some h
  rw [Entered, h, BitVec.toNat_ofNat, Nat.mod_eq_of_lt (by omega)]

/-- PUTC enters its character behind the characters entered. -/
theorem Entered.after_putc {cs : List Byte} {s : State} (h : Entered cs s) {c : Byte} {d : BitVec 4}
    (hd : hexval c = some d) (hlt : s.prec.toNat < 160) : Entered (cs ++ [c]) (recordDigit d s) := by
  obtain ⟨-, hhex, htarget, hprec⟩ := targetEncode_eq_some h
  have hlen : cs.length < 40 := by omega
  have hpos : s.prec.toNat / 4 = cs.length := by omega
  have hall : ∀ b ∈ cs ++ [c], hexval b ≠ none := by simpa [or_imp, forall_and, hd] using hhex
  rw [Entered, targetEncode_of_valid (by simp; omega) hall, recordDigit_target, recordDigit_prec, htarget, hpos,
    putTargetDigit_digitsTarget hlen hd, BitVec.toNat_ofNat, Nat.mod_eq_of_lt (by omega), hprec, List.length_append,
    List.length_singleton, Nat.mul_add]

/-- A PUTC that fails its check, with the Target not locked, fails it because of its character. -/
theorem Entered.checkPutc_some {cs : List Byte} {s : State} (h : Entered cs s) (hl : s.tlock = false) {c : Byte}
    {x : Cause} (hc : checkPutc c s = some x) : x = .invalidPrefix ∧ targetEncode (cs ++ [c]) = none := by
  have hinvalid : s.prec.toNat = 160 ∨ hexval c = none := by
    by_contra hvalid
    push Not at hvalid
    obtain ⟨hne, hhex⟩ := hvalid
    cases hc.symm.trans (checkPutc_eq_none.2 ⟨hl, hne, Option.ne_none_iff_exists'.1 hhex⟩)
  have hprec := h.prec_eq
  have hcause := checkPutc_of_invalid hl (hinvalid.imp_left fun hp => BitVec.eq_of_toNat_eq hp)
  refine ⟨Option.some.inj (hc.symm.trans hcause), (targetEncode_concat_eq_none_iff h).2 ?_⟩
  exact hinvalid.symm.imp_right fun hp => by omega

/-! ## Runs of PUTC -/

theorem execAll_halted (is : List Instr) {s : State} (h : s.err ≠ none) : execAll is s = .next s := by
  induction is with
  | nil => rfl
  | cons i is ih => rw [execAll_cons_of_next (exec_halted i h), ih]

/-- Valid characters are entered without a fault, and nothing but the Target and the precision changes. -/
theorem execAll_prefixAll {cs : List Byte} {s : State} {t : Words5} {p : Nat} (he : s.err = none)
    (hl : s.tlock = false) (hs : Entered [] s) (h : targetEncode cs = some (t, p)) :
    execAll (prefixAll cs) s = .next { s with target := t, prec := BitVec.ofNat 8 p } := by
  induction cs using List.reverseRecOn generalizing t p with
  | nil =>
    cases hs.symm.trans h
    rw [BitVec.ofNat_toNat, BitVec.setWidth_eq]
    rfl
  | append_singleton cs c ih =>
    obtain ⟨t', p', d, hcs, hd, hlen⟩ := targetEncode_concat_eq_some h
    have hu := entered_of_targetEncode hcs s
    have hlt := hu.prec_eq.trans_lt (show 4 * cs.length < 160 by omega)
    have hrun := execAll_concat (ih hcs) (exec_putc_of_hexval he hl hlt hd)
    rw [prefixAll, List.map_append]
    refine hrun.trans ?_
    cases (hu.after_putc hd hlt).symm.trans h
    rw [BitVec.ofNat_toNat, BitVec.setWidth_eq]
    rfl

/-! ## Other commands between the characters -/

theorem charactersOf_cons (i : Instr) (is : List Instr) :
    charactersOf (i :: is) = (enteredCharacter i).toList ++ charactersOf is := by
  rw [charactersOf, List.filterMap_cons]
  cases enteredCharacter i <;> rfl

/-- A command that runs has entered its character, if it is one that enters a character. -/
theorem Entered.after_effect {cs : List Byte} {i : Instr} {s t : State} (h : Entered cs s) (hran : Ran i s t) :
    Entered (cs ++ (enteredCharacter i).toList) (effectOf i s) := by
  cases hi : enteredCharacter i with
  | none =>
    obtain ⟨htarget, hprec⟩ := effectOf_target hi s
    rw [Option.toList_none, List.append_nil, Entered, htarget, hprec]
    exact h
  | some c =>
    cases eq_putc_of_enteredCharacter hi
    obtain ⟨-, hne, d, hd⟩ := checkPutc_eq_none.1 hran.check
    have hle : s.prec.toNat ≤ 160 := hran.defined
    have hnext := h.after_putc hd (lt_of_le_of_ne hle hne)
    rw [effectOf, registersOf, hd]
    exact hnext

/-- What a run of commands without CMP shows behind the characters `cs`: with no fault, the Target of all characters
entered; with the fault of a PUTC, invalid characters. -/
structure EntryOutcome (cs : List Byte) (t : State) : Prop where
  entered : t.err = none → Entered cs t
  invalid : ∀ c, t.err ≠ none → t.ecmd = encode (.putc c) → t.err = some .invalidPrefix ∧ targetEncode cs = none

theorem Entered.entryOutcome {cs : List Byte} {s t : State} {is : List Instr} (he : s.err = none) (hl : s.tlock = false)
    (hs : Entered cs s) (hcmp : .cmp ∉ is) (h : execAll is s = .next t) : EntryOutcome (cs ++ charactersOf is) t := by
  induction is generalizing s cs with
  | nil =>
    cases h
    rw [charactersOf, List.filterMap_nil, List.append_nil]
    exact ⟨fun _ => hs, fun _ hne => absurd he hne⟩
  | cons i is ih =>
    obtain ⟨hi, his⟩ := List.ne_and_not_mem_of_not_mem_cons hcmp
    rw [charactersOf_cons, ← List.append_assoc]
    rw [execAll] at h
    split at h
    case h_2 | h_3 => cases h
    case h_1 u hu =>
      obtain ⟨hhalted, -⟩ | ⟨x, -, hc, rfl⟩ | ⟨-, hran⟩ := exec_next_cases hu
      · exact absurd he hhalted
      · have hraised : (raise x (encode i) s).err ≠ none := Option.some_ne_none x
        cases (execAll_halted is hraised).symm.trans h
        refine ⟨fun hnone => absurd hnone hraised, fun c _ hword => ?_⟩
        cases encode_injective hword
        obtain ⟨rfl, hinvalid⟩ := hs.checkPutc_some hl hc
        exact ⟨rfl, targetEncode_append_eq_none hinvalid _⟩
      · have heffect := hran.effect
        subst heffect
        exact ih ((effectOf_err i s).trans he) ((effectOf_tlock hi.symm s).trans hl) (hs.after_effect hran) his h

/-! ## The obligations of 41_target_match.md section 2 -/

/-- Settles O57: the characters before the first invalid one are entered; that one raises, and the rest is discarded. -/
theorem prefixEntryAgreesWithEncode : Obligations.PrefixEntryAgreesWithEncode := by
  intro cs s he hl hp ht
  have hs := entered_nil hp ht
  refine ⟨fun t p h => execAll_prefixAll he hl hs h, fun h => ?_⟩
  obtain ⟨front, c, back, ⟨t, p⟩, rfl, hfront, hbad⟩ := exists_first_invalid h
  refine ⟨front, c, back, t, p, rfl, hfront, hbad, ?_⟩
  obtain ⟨hlen, -, -, hp'⟩ := targetEncode_eq_some hfront
  have hinvalid : BitVec.ofNat 8 p = 160 ∨ hexval c = none :=
    hbad.symm.imp_left fun hfull => by rw [hp', hfull]; rfl
  have hraise := exec_of_check (i := .putc c) (s := { s with target := t, prec := BitVec.ofNat 8 p }) he
    (checkPutc_of_invalid hl hinvalid)
  rw [prefixAll, List.map_append, List.map_cons]
  refine (execAll_append_of_next (execAll_prefixAll he hl hs hfront)).trans ?_
  exact (execAll_cons_of_next hraise).trans (execAll_halted _ (Option.some_ne_none _))

/-- Settles O58: between the characters no command but CMP writes the Target or its lock. -/
theorem prefixEntryMayBeInterleaved : Obligations.PrefixEntryMayBeInterleaved := by
  intro is s t he hl hp ht hcmp h
  obtain ⟨hentered, hinvalid⟩ := (entered_nil hp ht).entryOutcome he hl hcmp h
  exact ⟨hentered, hinvalid⟩

end Sys2Proof.Machine
end
